-- ==== Sys2Proof/Word.lean ====
section
/-! DEFINITION. The word types of the block: register word, byte (a character is a byte), nibble (R7). -/

namespace Sys2Proof

/-- A register value: 32 bits, unsigned (R7, R22). -/
abbrev Word := BitVec 32

/-- A byte, which is also a character: 8 bits, unsigned (R7). -/
abbrev Byte := BitVec 8

/-- A nibble: 4 bits, unsigned, 0 to 15 (R7). -/
abbrev Nibble := BitVec 4

end Sys2Proof
end

