-- ==== Sys2Proof/Syntax.lean ====
section
/-! DEFINITION. The ten commands (R68). A command has no register operand and no immediate field (R71), so
no constructor carries one. -/

namespace Sys2Proof

/-- The commands of the opcode map (R68), one constructor for each row. -/
inductive Instr where
  /-- ENC.L: encode LEN bytes, lower-case alphabet (R98). -/
  | encL
  /-- ENC.U: encode LEN bytes, upper-case alphabet (R99). -/
  | encU
  /-- ENCF.L: encode ENC_FIXED_N bytes, lower-case alphabet (R100). -/
  | encfL
  /-- ENCF.U: encode ENC_FIXED_N bytes, upper-case alphabet (R101). -/
  | encfU
  /-- DEC: decode LEN characters, both cases accepted (R106). -/
  | dec
  /-- DEC.SL: decode LEN characters, only `0-9a-f` accepted (R107). -/
  | decSL
  /-- DEC.SU: decode LEN characters, only `0-9A-F` accepted (R108). -/
  | decSU
  /-- DECF: decode DEC_FIXED_N characters, both cases accepted (R109). -/
  | decf
  /-- DECF.SL: decode DEC_FIXED_N characters, only `0-9a-f` accepted (R110). -/
  | decfSL
  /-- DECF.SU: decode DEC_FIXED_N characters, only `0-9A-F` accepted (R111). -/
  | decfSU
  deriving DecidableEq, Repr

end Sys2Proof
end

