-- ==== Sys2Proof/Decode.lean ====
section
/-! DEFINITION. The command word (R62 to R70): the decoder, from the fields, and the encoder, from the opcode
map. -/

namespace Sys2Proof

/-- Why a word is reserved (R70). -/
inductive Reserved where
  /-- Bits [31:4] are not 0 (R67). -/
  | rsvBits
  /-- OP = 0 with STRICT = 1: 0x4, 0x6, 0xC, 0xE (R65). -/
  | encodeStrict
  /-- OP = 1 with CASE = 1 and STRICT = 0: 0x3, 0xB (R64). -/
  | decodeCase
  deriving DecidableEq, Repr

/-- Field OP, bit [0]: 1 = Decoder (R63). -/
def fieldOp (w : Word) : Bool := w.getLsbD 0

/-- Field CASE, bit [1]: 1 = upper case (R64). -/
def fieldCase (w : Word) : Bool := w.getLsbD 1

/-- Field STRICT, bit [2]: 1 = case-sensitive decode (R65). -/
def fieldStrict (w : Word) : Bool := w.getLsbD 2

/-- Field FIXED, bit [3]: 1 = fixed-size path (R66). -/
def fieldFixed (w : Word) : Bool := w.getLsbD 3

/-- Field RSV, bits [31:4] (R67). -/
def fieldRsv (w : Word) : BitVec 28 := w.extractLsb' 4 28

/-- The decoder: total on every 32-bit word, rejecting a reserved word by the reason it is reserved for
(R62 to R67, R70). The columns of the match are OP, STRICT, CASE, FIXED. -/
def decode (w : Word) : Except Reserved Instr :=
  if fieldRsv w = 0#28 then
    match fieldOp w, fieldStrict w, fieldCase w, fieldFixed w with
    | false, false, false, false => .ok .encL
    | false, false, true, false => .ok .encU
    | false, false, false, true => .ok .encfL
    | false, false, true, true => .ok .encfU
    | false, true, _, _ => .error .encodeStrict
    | true, false, false, false => .ok .dec
    | true, false, false, true => .ok .decf
    | true, false, true, _ => .error .decodeCase
    | true, true, false, false => .ok .decSL
    | true, true, true, false => .ok .decSU
    | true, true, false, true => .ok .decfSL
    | true, true, true, true => .ok .decfSU
  else .error .rsvBits

/-- The encoder: the command word of each row of the opcode map (R68). -/
def encode : Instr → Word
  | .encL => 0x00000000#32
  | .encU => 0x00000002#32
  | .encfL => 0x00000008#32
  | .encfU => 0x0000000A#32
  | .dec => 0x00000001#32
  | .decSL => 0x00000005#32
  | .decSU => 0x00000007#32
  | .decf => 0x00000009#32
  | .decfSL => 0x0000000D#32
  | .decfSU => 0x0000000F#32

/-- What the decoder reads from a word given as the opcode table numbers it. A command is one 32-bit word and
nothing else (R62), so bits at and above `nbits` are 0 and a set bit above 31 is no command. -/
def decodeTableWord (nbits w : Nat) : Option Instr :=
  if w % 2 ^ nbits < 2 ^ 32 then
    match decode (BitVec.ofNat 32 (w % 2 ^ nbits)) with
    | .ok i => some i
    | .error _ => none
  else none

end Sys2Proof
end

