-- ==== Sys2Proof/Config.lean ====
section
/-! DEFINITION. What one instance of the block fixes (R6), and the free values. -/

namespace Sys2Proof

/-- The implementation parameters of one instance (R6). No host access reads or changes them (R37). -/
structure Params where
  /-- `IN_CAP`: capacity of IN in bytes. OUT holds `2 * IN_CAP` bytes. -/
  inCap : Nat
  /-- `ENC_FIXED_N`: length of ENCF.L and ENCF.U, or absent. -/
  encFixedN : Option Nat
  /-- `DEC_FIXED_N`: length of DECF, DECF.SL and DECF.SU, or absent. -/
  decFixedN : Option Nat
  /-- `REG_BASE`: where the platform maps REG. No rule reads it (R39). -/
  regBase : Nat
  /-- `IN_BASE`: where the platform maps IN. No rule reads it (R39). -/
  inBase : Nat
  /-- `OUT_BASE`: where the platform maps OUT. No rule reads it (R39). -/
  outBase : Nat
  deriving DecidableEq, Repr

/-- The instance that `State.reset` stands in. DESIGN CHOICE (assumption 2): the spec leaves every parameter
open; the fixed lengths are those of the spec's program P5. Every other legal instance is a state with another
`inst`, and the statements hold for all of them. -/
def Config.inst : Params where
  inCap := 65536
  encFixedN := some 2
  decFixedN := some 4
  regBase := 0
  inBase := 0
  outBase := 0

/-- `draw()` (R13, R31): a byte under no law. The machine applies it to a counter that it advances at each
use, so every draw is a fresh one. It has no body: nothing can be proved of its value (assumption 4). -/
opaque Config.draw : Nat → Byte

end Sys2Proof
end

