-- ==== Sys2Proof/Machine/Access.lean ====
section
/-! DEFINITION. What reaches the block from outside: the host's transactions (R40), the reset input (R20),
and the engine's turn in the schedule of the two agents (R87). -/

namespace Sys2Proof.Machine

/-- The three address spaces (R38). -/
inductive Space where
  | reg | inBuf | outBuf
  deriving DecidableEq, Repr

/-- The access widths a transaction can have, 8 or 32 bits (R40). -/
inductive Width where
  | w8 | w32
  deriving DecidableEq, Repr

/-- A value on the host port, with its width: what a W transaction carries and what an R transaction gives
back. -/
inductive Datum where
  | byte (v : Byte)
  | word (v : Word)
  deriving DecidableEq, Repr

/-- The width of a value. -/
def Datum.width : Datum → Width
  | .byte _ => .w8
  | .word _ => .w32

/-- One host transaction `(dir, space, off, width, data)` (R40). The width of a W is that of its data. -/
inductive Access where
  | read (space : Space) (off : Nat) (width : Width)
  | write (space : Space) (off : Nat) (data : Datum)
  deriving DecidableEq, Repr

/-- One event of a run, in the order the events happen (R54, R87): the host makes an access, the reset input
RST is asserted (R20), or the engine is scheduled. -/
inductive Event where
  | access (a : Access)
  | rst
  | engine
  deriving DecidableEq, Repr

/-- The five registers (R22). -/
inductive Reg where
  | cmd | len | status | errPos | outLen
  deriving DecidableEq, Repr

/-- The register at a byte offset of REG, if there is one (R22). -/
def Reg.ofOffset (off : Nat) : Option Reg :=
  if off = 0x00 then some .cmd
  else if off = 0x04 then some .len
  else if off = 0x08 then some .status
  else if off = 0x0C then some .errPos
  else if off = 0x10 then some .outLen
  else none

/-- The byte offset of a register in REG (R22). -/
def Reg.offset : Reg → Nat
  | .cmd => 0x00
  | .len => 0x04
  | .status => 0x08
  | .errPos => 0x0C
  | .outLen => 0x10

end Sys2Proof.Machine
end

