-- ==== Sys2Proof/WellFormed.lean ====
section
/-! DEFINITION. The checks on what the model is given: an instance (R6, R8), a command on an instance (R88),
a host transaction's shape (R40). A command carries no operand (R71), so no term of `Instr` is ill-formed in
itself. -/

namespace Sys2Proof

/-- `IN_CAP` is 0 to 2^31 - 1 (R6). -/
def Params.capLegal (p : Params) : Bool := decide (p.inCap ≤ 2 ^ 31 - 1)

/-- `ENC_FIXED_N` is absent or at most `IN_CAP` (R6). -/
def Params.encFixedLegal (p : Params) : Bool :=
  match p.encFixedN with
  | none => true
  | some n => decide (n ≤ p.inCap)

/-- `DEC_FIXED_N` is absent, or even and at most `IN_CAP` (R6, R8). -/
def Params.decFixedLegal (p : Params) : Bool :=
  match p.decFixedN with
  | none => true
  | some n => decide (n ≤ p.inCap) && decide (n % 2 = 0)

/-- A legal instance (R6). -/
def Params.legal (p : Params) : Bool := p.capLegal && p.encFixedLegal && p.decFixedLegal

/-- The parameters of a legal instance. A state holds these, so there is no state of an illegal instance (R8). -/
structure LegalParams extends Params where
  /-- The constraints of R6. -/
  isLegal : toParams.legal = true
  deriving DecidableEq, Repr

/-- Building an instance: an illegal one is refused at construction, not at run time (R8). -/
def Params.build (p : Params) : Option LegalParams := if h : p.legal = true then some ⟨p, h⟩ else none

/-- Whether an instance has the parameter a command takes its length from (R66, R88). -/
def Instr.availableOn (p : Params) : Instr → Bool
  | .encL | .encU | .dec | .decSL | .decSU => true
  | .encfL | .encfU => p.encFixedN.isSome
  | .decf | .decfSL | .decfSU => p.decFixedN.isSome

/-- The legal shapes of a host transaction (R41 to R45): a 32-bit read of a register, a 32-bit write of CMD
or LEN, an 8-bit read or write of IN in range, an 8-bit read of OUT in range. Every other access is refused
whatever the state (R46). -/
def Machine.Access.legalShape (p : Params) : Machine.Access → Bool
  | .read .reg off .w32 => (Machine.Reg.ofOffset off).isSome
  | .read .inBuf i .w8 => decide (i < p.inCap)
  | .read .outBuf i .w8 => decide (i < 2 * p.inCap)
  | .write .reg off (.word _) => decide (off = 0x00) || decide (off = 0x04)
  | .write .inBuf i (.byte _) => decide (i < p.inCap)
  | .read .reg _ .w8 | .read .inBuf _ .w32 | .read .outBuf _ .w32 | .write .reg _ (.byte _)
  | .write .inBuf _ (.word _) | .write .outBuf _ _ => false

end Sys2Proof
end

