-- ==== Sys2Proof/Machine/State.lean ====
section
/-! DEFINITION. The full state of one instance (R36), its reset value, and the reasons a step can stop. -/

namespace Sys2Proof.Machine

/-- The encoder's alphabet, or the letter case a strict decoder accepts (R17). -/
inductive Case where
  | l | u
  deriving DecidableEq, Repr

/-- The decoder's acceptance mode: case-insensitive, strict lower, strict upper (R17). -/
inductive Mode where
  | i | sl | su
  deriving DecidableEq, Repr

/-- The decode errors, exactly two (R12, R102, R116). -/
inductive DecodeError where
  | oddLength
  | invalidCharacter (position : Nat)
  deriving DecidableEq, Repr

/-- The fields `op`, `case` and `mode` of the pending record (R33): `mode` exists for a decode only. -/
inductive Job where
  | enc (case : Case)
  | dec (case : Case) (mode : Mode)
  deriving DecidableEq, Repr

/-- The pending command record (R33): what the engine is to do, and the input length latched at START. -/
structure Pending where
  job : Job
  n : Nat
  deriving DecidableEq, Repr

/-- The values of STATUS.RESULT (R26). -/
inductive ResultCode where
  | none | ok | oddLength | invalidCharacter
  deriving DecidableEq, Repr

/-- A buffer's defined elements, as (index, byte) pairs with strictly rising indices. An index not listed is
an undefined element (R31). -/
abbrev Memory := List Host.Cell

/-- Why the machine stops with a fault. The block itself raises no trap, exception or fault (R115). -/
inductive Fault where
  /-- Raised by the engine's completion when BUSY = 1 with no pending record. No state that meets `State.Inv`
  is one (R33), so no run from reset raises it. Safe: the model stops. -/
  | pendingMissing
  deriving DecidableEq, Repr

/-- Why the model has no step for a host access (R122). Each is safe: the model gives the access no effect
on the block. -/
inductive Refusal where
  /-- Raised by no arm of this model's `exec`: every command has its meaning. Safe. -/
  | notModelled (mnemonic : String)
  /-- Raised by a W to CMD of a value that is not a legal command word (R42, R70). Safe. -/
  | reservedCommand
  /-- Raised by a W to CMD while BUSY = 1 (R42), so by every command's meaning then. Safe. -/
  | commandWhileBusy
  /-- Raised by a W to IN while BUSY = 1 (R44). Safe. -/
  | inWriteWhileBusy
  /-- Raised by the five fixed-size commands on an instance without their parameter (R88). Safe. -/
  | fixedAbsent
  /-- Raised by the five slice commands when LEN > IN_CAP (R88). Safe. -/
  | lengthOverCapacity
  /-- Raised by a W to STATUS, ERR_POS, OUT_LEN or OUT (R42, R46). Safe. -/
  | readOnlyWrite
  /-- Raised by a REG access at an offset that holds no register (R46). Safe. -/
  | badOffset
  /-- Raised by a REG access not 32 bits wide, or an IN or OUT access not 8 bits wide (R46). Safe. -/
  | badWidth
  /-- Raised by an IN access at an index ≥ IN_CAP or an OUT access at an index ≥ 2*IN_CAP (R46). Safe. -/
  | indexOutOfRange
  deriving DecidableEq, Repr

/-- The state of one instance: the components of R36, the refusal mark of R123, and four fields of the model's
own (`inst`, `script`, `replies`, `draws`; assumptions 1 to 4). -/
structure State where
  /-- CMD: the last accepted command word (R24). -/
  cmd : Word
  /-- LEN: the input length for slice commands (R25). -/
  len : Word
  /-- STATUS.RESULT (R26). -/
  result : ResultCode
  /-- STATUS.BUSY (R26). -/
  busy : Bool
  /-- ERR_POS: the position of the first invalid character (R27). -/
  errPos : Word
  /-- OUT_LEN: the number of valid output bytes (R28). -/
  outLen : Word
  /-- IN: the input buffer's defined elements (R29). -/
  inBuf : Memory
  /-- OUT: the output buffer's defined elements (R30). -/
  outBuf : Memory
  /-- The pending command, while BUSY = 1 (R33). -/
  pending : Option Pending
  /-- The refusal mark: the reason of the first refusal, or none (R123). -/
  mark : Option Refusal
  /-- The instance's parameters (R6), which are legal ones (R8): fixed, read by START and by the port's range checks,
  never written. -/
  inst : LegalParams
  /-- The model's own: the host's accesses, resets and the engine's turns still to come, in order (R54, R87). -/
  script : List Event
  /-- The model's own: what host reads have returned so far, newest first. -/
  replies : List Datum
  /-- The model's own: how many undefined elements have been read so far (R31). -/
  draws : Nat
  deriving DecidableEq, Repr

/-- A legal instance right after power-on reset, with nothing sent by the host (R8, R36, R130). -/
def State.resetOf (p : LegalParams) : State where
  cmd := 0x00000000#32
  len := 0x00000000#32
  result := .none
  busy := false
  errPos := 0x00000000#32
  outLen := 0x00000000#32
  inBuf := []
  outBuf := []
  pending := none
  mark := none
  inst := p
  script := []
  replies := []
  draws := 0

/-- The machine right after reset (R36, R130), on the instance `Config.inst`. -/
def State.reset : State := State.resetOf ⟨Config.inst, rfl⟩

end Sys2Proof.Machine
end

