-- ==== Sys2Proof/Machine/Datapath.lean ====
section
/-! DEFINITION. The datapath primitives (R75 to R83) and the two sequence functions ENCODE (R96) and DECODE
(R102). None of them reads or writes state (R16). -/

namespace Sys2Proof.Machine

/-- `b[7:4]`, the high nibble of a byte (R18). -/
def hiNibble (b : Byte) : Nibble := b.extractLsb' 4 4

/-- `b[3:0]`, the low nibble of a byte (R18). -/
def loNibble (b : Byte) : Nibble := b.extractLsb' 0 4

/-- The code of the digit ten in an alphabet: `a` or `A` (R75). -/
def letterBase : Case → Byte
  | .l => 0x61#8
  | .u => 0x41#8

/-- `ALPHA_L` and `ALPHA_U`: the character of a nibble (R76). -/
def alphabet (c : Case) (n : Nibble) : Byte :=
  if n.toNat < 10 then 0x30#8 + n.setWidth 8
  else letterBase c + (n.setWidth 8 - 10#8)

/-- `EncLUT`: the two characters of a byte, `(c_hi, c_lo)` (R77, R78). -/
def encLUT (c : Case) (b : Byte) : Byte × Byte :=
  (alphabet c (hiNibble b), alphabet c (loNibble b))

/-- A digit `0` to `9` (R79). -/
def digitNibble (ch : Byte) : Option Nibble :=
  if 0x30 ≤ ch.toNat ∧ ch.toNat ≤ 0x39 then some (BitVec.ofNat 4 (ch.toNat - 0x30)) else none

/-- A letter `A` to `F` (R79, R81). -/
def upperNibble (ch : Byte) : Option Nibble :=
  if 0x41 ≤ ch.toNat ∧ ch.toNat ≤ 0x46 then some (BitVec.ofNat 4 (ch.toNat - 0x41 + 10)) else none

/-- A letter `a` to `f` (R79, R80). -/
def lowerNibble (ch : Byte) : Option Nibble :=
  if 0x61 ≤ ch.toNat ∧ ch.toNat ≤ 0x66 then some (BitVec.ofNat 4 (ch.toNat - 0x61 + 10)) else none

/-- `DecLUT`: the tables `DEC_I`, `DEC_SL` and `DEC_SU`; `none` is the sentinel INVALID (R79 to R82). -/
def decLUT (m : Mode) (ch : Byte) : Option Nibble :=
  match m with
  | .i => (digitNibble ch).or ((upperNibble ch).or (lowerNibble ch))
  | .sl => (digitNibble ch).or (lowerNibble ch)
  | .su => (digitNibble ch).or (upperNibble ch)

/-- `Pack`: two nibbles to one byte, `(high << 4) | low` (R83). -/
def pack (h l : Nibble) : Byte := (h.setWidth 8 <<< 4) ||| l.setWidth 8

/-- `ENCODE(case, s)` (R96). -/
def encodeSeq (c : Case) : List Byte → List Byte
  | [] => []
  | b :: bs => (encLUT c b).1 :: (encLUT c b).2 :: encodeSeq c bs

/-- The loop of `DECODE` over the pairs of characters, the first of which is at position `pos` (R102). -/
def decodePairs (m : Mode) (pos : Nat) : List Byte → Except DecodeError (List Byte)
  | h :: l :: rest =>
    match decLUT m h with
    | none => .error (.invalidCharacter pos)
    | some hn =>
      match decLUT m l with
      | none => .error (.invalidCharacter (pos + 1))
      | some ln =>
        match decodePairs m (pos + 2) rest with
        | .error e => .error e
        | .ok out => .ok (pack hn ln :: out)
  | [_] => .ok []
  | [] => .ok []

/-- `DECODE(mode, s)`: the length check first, then the pairs in rising order (R102, R103). -/
def decodeSeq (m : Mode) (s : List Byte) : Except DecodeError (List Byte) :=
  if s.length % 2 = 1 then .error .oddLength else decodePairs m 0 s

/-- What a command computes from its input sequence (R90). -/
def Job.compute (j : Job) (s : List Byte) : Except DecodeError (List Byte) :=
  match j with
  | .enc c => .ok (encodeSeq c s)
  | .dec _ m => decodeSeq m s

/-- `to_uppercase` on one code: 0x61–0x66 to 0x41–0x46, every other code unchanged (R113). -/
def upperCode (ch : Byte) : Byte :=
  if 0x61 ≤ ch.toNat ∧ ch.toNat ≤ 0x66 then ch - 0x20#8 else ch

/-- `to_lowercase` on one code: 0x41–0x46 to 0x61–0x66, every other code unchanged (R113). -/
def lowerCode (ch : Byte) : Byte :=
  if 0x41 ≤ ch.toNat ∧ ch.toNat ≤ 0x46 then ch + 0x20#8 else ch

end Sys2Proof.Machine
end

