-- ==== Sys2Proof/Machine/Flags.lean ====
section
/-! DEFINITION. The flags: the RESULT codes and the STATUS word (R26, R35). No arithmetic sets a flag (R85). -/

namespace Sys2Proof.Machine

/-- The code of a result in STATUS[1:0] (R26). -/
def ResultCode.code : ResultCode → BitVec 2
  | .none => 0#2
  | .ok => 1#2
  | .oddLength => 2#2
  | .invalidCharacter => 3#2

/-- STATUS as a host read gives it: RSV [31:3] = 0, BUSY [2], RESULT [1:0] (R26). -/
def State.statusWord (s : State) : Word :=
  0#29 ++ (BitVec.ofBool s.busy ++ s.result.code)

end Sys2Proof.Machine
end

