-- ==== Sys2Proof/Machine/Ops.lean ====
section
/-! DEFINITION. The operations over buffers and registers that the meanings, the engine and the host port
share. The block takes no exception and returns from none (R115, R120): the shared operation in its place is
`State.finish`, which reports a command's result or error in STATUS and ERR_POS (R116, R119). -/

namespace Sys2Proof.Machine

/-- What an index that no pair lists reads as: an undefined element (R31). -/
def Memory.unlisted : Option Byte := none

/-- One element of a buffer, if it is defined (R31). -/
def Memory.read : Memory → Nat → Option Byte
  | [], _ => Memory.unlisted
  | (k, b) :: m, a => if k = a then some b else Memory.read m a

/-- Define one element, keeping the indices strictly rising (R31). -/
def Memory.write : Memory → Nat → Byte → Memory
  | [], a, v => [(a, v)]
  | (k, b) :: m, a, v =>
    if a < k then (a, v) :: (k, b) :: m
    else if a = k then (a, v) :: m
    else (k, b) :: Memory.write m a v

/-- The buffer whose defined elements are the given bytes, from index `k` on. -/
def Memory.imageFrom (k : Nat) : List Byte → Memory
  | [] => []
  | b :: bs => (k, b) :: Memory.imageFrom (k + 1) bs

/-- The buffer whose defined elements are exactly the given bytes, from index 0 on (R90). -/
def Memory.image (bs : List Byte) : Memory := Memory.imageFrom 0 bs

/-- The canonical form: indices strictly rising. An unlisted index reads as no byte at all, so no pair can
equal it. -/
abbrev Memory.wf (m : Memory) : Prop := (m.map Prod.fst).Pairwise (· < ·)

/-- Every defined element lies below a capacity (R29, R30). -/
abbrev Memory.below (cap : Nat) (m : Memory) : Prop := ∀ k ∈ m.map Prod.fst, k < cap

/-- The value a host read of a register gives (R24 to R28, R41). -/
def State.readReg (s : State) : Reg → Word
  | .cmd => s.cmd
  | .len => s.len
  | .status => s.statusWord
  | .errPos => s.errPos
  | .outLen => s.outLen

/-- Give a value back to the host (R41, R43, R45). -/
def State.reply (v : Datum) (s : State) : State := { s with replies := v :: s.replies }

/-- Give the host one element of a buffer: its value, or a fresh `draw()` where it is undefined (R31, R43,
R45). -/
def State.replyElement (e : Option Byte) (s : State) : State :=
  match e with
  | some b => { s with replies := .byte b :: s.replies }
  | none => { s with replies := .byte (Config.draw s.draws) :: s.replies, draws := s.draws + 1 }

/-- A host write of LEN (R25, R42). -/
def State.setLen (v : Word) (s : State) : State := { s with len := v }

/-- A host write of one element of IN, which becomes defined (R44). -/
def State.setIn (i : Nat) (v : Byte) (s : State) : State := { s with inBuf := Memory.write s.inBuf i v }

/-- Set the refusal mark, which the first refusal sets for good (R123). Nothing else changes: a refused access
does not change the block's state (R40). -/
def State.markRefusal (r : Refusal) (s : State) : State :=
  { s with mark := s.mark.or (some r) }

/-- The effect of RST (R130, R131): every component of R36 at its reset value, the mark kept. The parameters are
no state (R37), and what the host has yet to send and has received so far is the host's. -/
def State.assertReset (s : State) : State :=
  { s with cmd := 0x00000000#32, len := 0x00000000#32, result := .none, busy := false,
           errPos := 0x00000000#32, outLen := 0x00000000#32, inBuf := [], outBuf := [], pending := none }

/-- START's effect when it is not refused, one atomic step (R89). -/
def State.issue (w : Word) (j : Job) (n : Nat) (s : State) : State :=
  { s with cmd := w, pending := some ⟨j, n⟩, busy := true, result := .none,
           errPos := 0x00000000#32, outLen := 0x00000000#32, outBuf := [] }

/-- START(w) of a command with job `j`, whose length is `n?` (absent for a fixed-size command on an instance
without its parameter), with the refusals in the order of R42 and R88. -/
def start (w : Word) (j : Job) (n? : Option Nat) (s : State) : Host.Outcome State Fault Refusal :=
  if s.busy then .refused .commandWhileBusy
  else
    match n? with
    | none => .refused .fixedAbsent
    | some n => if s.inst.inCap < n then .refused .lengthOverCapacity else .next (s.issue w j n)

/-- Report a command's result, one atomic step (R90, R119): RESULT, ERR_POS, OUT_LEN and the whole of OUT. The
elements of OUT at and above the output's length are undefined. -/
def State.finish (code : ResultCode) (pos : Word) (out : List Byte) (s : State) : State :=
  { s with result := code, errPos := pos, outLen := BitVec.ofNat 32 out.length,
           outBuf := Memory.image out, busy := false, pending := none }

/-- The three cases of COMPLETE (R90). -/
def State.report (r : Except DecodeError (List Byte)) (s : State) : State :=
  match r with
  | .ok out => s.finish .ok 0x00000000#32 out
  | .error .oddLength => s.finish .oddLength 0x00000000#32 []
  | .error (.invalidCharacter j) => s.finish .invalidCharacter (BitVec.ofNat 32 j) []

end Sys2Proof.Machine
end

