-- ==== Sys2Proof/Machine/Operands.lean ====
section
/-! DEFINITION. The operands of a command, all implicit (R71): its length and its input sequence. -/

namespace Sys2Proof.Machine

/-- The length of a slice command: REG.LEN at START (R66, R69). -/
def State.sliceLength (s : State) : Option Nat := some s.len.toNat

/-- The length of a fixed-size encode: ENC_FIXED_N, if the instance has it (R66, R69). -/
def State.encFixedLength (s : State) : Option Nat := s.inst.encFixedN

/-- The length of a fixed-size decode: DEC_FIXED_N, if the instance has it (R66, R69). -/
def State.decFixedLength (s : State) : Option Nat := s.inst.decFixedN

/-- `k` elements of a buffer from index `i` on, an undefined one read as a fresh `draw()` (R31, R90). `d` counts
the draws made before; the second result counts those made after. -/
def inputFrom (m : Memory) (i d : Nat) : Nat → List Byte × Nat
  | 0 => ([], d)
  | k + 1 =>
    match Memory.read m i with
    | some b => (b :: (inputFrom m (i + 1) d k).1, (inputFrom m (i + 1) d k).2)
    | none => (Config.draw d :: (inputFrom m (i + 1) (d + 1) k).1, (inputFrom m (i + 1) (d + 1) k).2)

/-- The input sequence `IN[0 .. n-1]` of a command (R71, R90), and the count of draws after it is read. -/
def State.input (s : State) (n : Nat) : List Byte × Nat := inputFrom s.inBuf 0 s.draws n

end Sys2Proof.Machine
end

