-- ==== Sys2Proof/Machine/Engine.lean ====
section
/-! DEFINITION. The engine, the block's second agent (R87). Its only step is COMPLETE (R90). -/

namespace Sys2Proof.Machine

/-- COMPLETE of a pending command (R90): read its input, compute its result, report it. CMD, LEN and IN are not
written. -/
def State.completePending (p : Pending) (s : State) : State :=
  { s with draws := (s.input p.n).2 }.report (p.job.compute (s.input p.n).1)

/-- COMPLETE (R90), one atomic step. -/
def complete (s : State) : Host.Outcome State Fault Refusal :=
  match s.pending with
  | none => .fault .pendingMissing
  | some p => .next (s.completePending p)

/-- The engine is scheduled: COMPLETE is enabled exactly when BUSY = 1 (R90); otherwise the engine has no step
and the block holds its state (R129). -/
def engineTurn (s : State) : Host.Outcome State Fault Refusal :=
  if s.busy then complete s else .next s

end Sys2Proof.Machine
end

