-- ==== Sys2Proof/Machine/DecodeCmds.lean ====
section
/-! DEFINITION. The six decode commands (R106 to R111): what the host's write of the command word does. What
the engine then does is `complete` (Machine/Engine.lean). -/

namespace Sys2Proof.Machine

/-- DEC (R106): START with pending = (DEC, L, I, LEN). -/
def execDec (s : State) : Host.Outcome State Fault Refusal :=
  start (encode .dec) (.dec .l .i) s.sliceLength s

/-- DEC.SL (R107): START with pending = (DEC, L, SL, LEN). -/
def execDecSL (s : State) : Host.Outcome State Fault Refusal :=
  start (encode .decSL) (.dec .l .sl) s.sliceLength s

/-- DEC.SU (R108): START with pending = (DEC, U, SU, LEN). -/
def execDecSU (s : State) : Host.Outcome State Fault Refusal :=
  start (encode .decSU) (.dec .u .su) s.sliceLength s

/-- DECF (R109): START with pending = (DEC, L, I, DEC_FIXED_N). LEN is not read. -/
def execDecf (s : State) : Host.Outcome State Fault Refusal :=
  start (encode .decf) (.dec .l .i) s.decFixedLength s

/-- DECF.SL (R110): START with pending = (DEC, L, SL, DEC_FIXED_N). LEN is not read. -/
def execDecfSL (s : State) : Host.Outcome State Fault Refusal :=
  start (encode .decfSL) (.dec .l .sl) s.decFixedLength s

/-- DECF.SU (R111): START with pending = (DEC, U, SU, DEC_FIXED_N). LEN is not read. -/
def execDecfSU (s : State) : Host.Outcome State Fault Refusal :=
  start (encode .decfSU) (.dec .u .su) s.decFixedLength s

end Sys2Proof.Machine
end

