-- ==== Sys2Proof/Machine/EncodeCmds.lean ====
section
/-! DEFINITION. The four encode commands (R98 to R101): what the host's write of the command word does. What
the engine then does is `complete` (Machine/Engine.lean). -/

namespace Sys2Proof.Machine

/-- ENC.L (R98): START with pending = (ENC, L, -, LEN). -/
def execEncL (s : State) : Host.Outcome State Fault Refusal :=
  start (encode .encL) (.enc .l) s.sliceLength s

/-- ENC.U (R99): START with pending = (ENC, U, -, LEN). -/
def execEncU (s : State) : Host.Outcome State Fault Refusal :=
  start (encode .encU) (.enc .u) s.sliceLength s

/-- ENCF.L (R100): START with pending = (ENC, L, -, ENC_FIXED_N). LEN is not read. -/
def execEncfL (s : State) : Host.Outcome State Fault Refusal :=
  start (encode .encfL) (.enc .l) s.encFixedLength s

/-- ENCF.U (R101): START with pending = (ENC, U, -, ENC_FIXED_N). LEN is not read. -/
def execEncfU (s : State) : Host.Outcome State Fault Refusal :=
  start (encode .encfU) (.enc .u) s.encFixedLength s

end Sys2Proof.Machine
end

