-- ==== Sys2Proof/Machine/Dispatch.lean ====
section
/-! DEFINITION. One arm per command: the meaning of the host's write of its word to CMD (R68, R88, R89). -/

namespace Sys2Proof.Machine

def exec (i : Instr) (s : State) : Host.Outcome State Fault Refusal :=
  match i with
  | .encL => Sys2Proof.Machine.execEncL s
  | .encU => Sys2Proof.Machine.execEncU s
  | .encfL => Sys2Proof.Machine.execEncfL s
  | .encfU => Sys2Proof.Machine.execEncfU s
  | .dec => Sys2Proof.Machine.execDec s
  | .decSL => Sys2Proof.Machine.execDecSL s
  | .decSU => Sys2Proof.Machine.execDecSU s
  | .decf => Sys2Proof.Machine.execDecf s
  | .decfSL => Sys2Proof.Machine.execDecfSL s
  | .decfSU => Sys2Proof.Machine.execDecfSU s

end Sys2Proof.Machine
end

