-- ==== Sys2Proof/Machine/Port.lean ====
section
/-! DEFINITION. The host port (R40 to R46): what each transaction does, and which are refused. -/

namespace Sys2Proof.Machine

/-- RD (R41): a 32-bit read of a register. It changes no register and no buffer. -/
def readRegister (off : Nat) (width : Width) (s : State) : Host.Outcome State Fault Refusal :=
  match width with
  | .w8 => .refused .badWidth
  | .w32 =>
    match Reg.ofOffset off with
    | none => .refused .badOffset
    | some r => .next (s.reply (.word (s.readReg r)))

/-- A W to CMD (R42): START of a legal command; a reserved word is refused. -/
def writeCmd (v : Word) (s : State) : Host.Outcome State Fault Refusal :=
  match decode v with
  | .ok i => exec i s
  | .error _ => if s.busy then .refused .commandWhileBusy else .refused .reservedCommand

/-- WR (R42): a 32-bit write of a register. -/
def writeRegister (off : Nat) (data : Datum) (s : State) : Host.Outcome State Fault Refusal :=
  match data with
  | .byte _ => .refused .badWidth
  | .word v =>
    match Reg.ofOffset off with
    | none => .refused .badOffset
    | some .cmd => writeCmd v s
    | some .len => .next (s.setLen v)
    | some .status => .refused .readOnlyWrite
    | some .errPos => .refused .readOnlyWrite
    | some .outLen => .refused .readOnlyWrite

/-- RDB IN (R43): an 8-bit read of one element of IN, legal at any time. -/
def readIn (i : Nat) (width : Width) (s : State) : Host.Outcome State Fault Refusal :=
  match width with
  | .w32 => .refused .badWidth
  | .w8 =>
    if i < s.inst.inCap then .next (s.replyElement (Memory.read s.inBuf i))
    else .refused .indexOutOfRange

/-- WRB IN (R44): an 8-bit write of one element of IN, refused while BUSY = 1. -/
def writeIn (i : Nat) (data : Datum) (s : State) : Host.Outcome State Fault Refusal :=
  match data with
  | .word _ => .refused .badWidth
  | .byte v =>
    if i < s.inst.inCap then
      if s.busy then .refused .inWriteWhileBusy else .next (s.setIn i v)
    else .refused .indexOutOfRange

/-- RDB OUT (R45): an 8-bit read of one element of OUT, legal at any time. -/
def readOut (i : Nat) (width : Width) (s : State) : Host.Outcome State Fault Refusal :=
  match width with
  | .w32 => .refused .badWidth
  | .w8 =>
    if i < 2 * s.inst.inCap then .next (s.replyElement (Memory.read s.outBuf i))
    else .refused .indexOutOfRange

/-- A host transaction: its effect, or the reason it is refused (R40 to R46). Where several reasons of R46
apply, the order is this model's (assumption 6). -/
def serve (a : Access) (s : State) : Host.Outcome State Fault Refusal :=
  match a with
  | .read .reg off width => readRegister off width s
  | .read .inBuf i width => readIn i width s
  | .read .outBuf i width => readOut i width s
  | .write .reg off data => writeRegister off data s
  | .write .inBuf i data => writeIn i data s
  | .write .outBuf _ _ => .refused .readOnlyWrite

/-- A host transaction in a run: a refused one sets the refusal mark and has no other effect (R122, R123). -/
def hostTurn (a : Access) (s : State) : Host.Outcome State Fault Refusal :=
  match serve a s with
  | .next t => .next t
  | .fault f => .fault f
  | .refused r => .next (s.markRefusal r)

end Sys2Proof.Machine
end

