-- ==== Sys2Proof/Machine/Step.lean ====
section
/-! DEFINITION. One step of a run: the next event of the script happens (R54, R87). -/

namespace Sys2Proof.Machine

/-- The next event. With none left, the engine completes a command in progress (the fairness of R139), and an
idle block holds its state (R129). -/
def step (s : State) : Host.Outcome State Fault Refusal :=
  match s.script with
  | [] => engineTurn s
  | .engine :: rest => engineTurn { s with script := rest }
  | .rst :: rest => .next { s with script := rest }.assertReset
  | .access a :: rest => hostTurn a { s with script := rest }

/-- The host's next access is the write of a command word, given as the opcode table numbers it, to CMD
(R62, R88). A command is not fetched (R21): the CMD write is where the block takes it from (R58). -/
def State.withFetchWord (s : State) (nbits w : Nat) : State :=
  { s with script := .access (.write .reg 0x00 (.word (BitVec.ofNat 32 (w % 2 ^ nbits)))) :: s.script }

end Sys2Proof.Machine
end

