-- ==== Sys2Proof/Machine/HostNotation.lean ====
section
/-! DEFINITION. The spec's notation for host programs (R72, R73), each form as the events it stands for. It is
not part of the hardware. A `wait` is a number of polls, which the spec leaves free (R141). -/

namespace Sys2Proof.Machine

/-- `wr CMD, imm32` and `wr LEN, imm32` (R72). -/
def wr (r : Reg) (v : Word) : Event := .access (.write .reg r.offset (.word v))

/-- `rd REG_NAME -> var` (R72). -/
def rd (r : Reg) : Event := .access (.read .reg r.offset .w32)

/-- `wrb IN[idx], imm8` (R72). -/
def wrbIn (i : Nat) (v : Byte) : Event := .access (.write .inBuf i (.byte v))

/-- `rdb IN[idx] -> var` (R72). -/
def rdbIn (i : Nat) : Event := .access (.read .inBuf i .w8)

/-- `rdb OUT[idx] -> var` (R72). -/
def rdbOut (i : Nat) : Event := .access (.read .outBuf i .w8)

/-- `start MNEMONIC` (R73). -/
def startCmd (i : Instr) : Event := wr .cmd (encode i)

/-- `fill IN, b0, ..., bk` (R73), from index `k` on. -/
def fillFrom (k : Nat) : List Byte → List Event
  | [] => []
  | b :: bs => wrbIn k b :: fillFrom (k + 1) bs

/-- `wait` (R73) in a run in which the engine's turn comes after `k` polls that read BUSY = 1. -/
def waitPolls (k : Nat) : List Event := List.replicate k (rd .status) ++ [.engine, rd .status]

/-- `run MNEMONIC, n` (R73). -/
def runCmd (i : Instr) (n : Word) (polls : Nat) : List Event :=
  [wr .len n, startCmd i] ++ waitPolls polls

/-- `runf MNEMONIC` (R73). -/
def runFixed (i : Instr) (polls : Nat) : List Event := startCmd i :: waitPolls polls

end Sys2Proof.Machine
end

