-- ==== Sys2Proof/Safety.lean ====
section
/-! DEFINITION. The terms claims are stated in: the opcode map's columns, what a command reads, the engine's
turn, the state invariant, and what makes a run clean, finished or refused (R141, R143). -/

namespace Sys2Proof

/-- The columns "OP" and "case / mode" of the opcode map (R68, R69). -/
def Instr.job : Instr → Machine.Job
  | .encL | .encfL => .enc .l
  | .encU | .encfU => .enc .u
  | .dec | .decf => .dec .l .i
  | .decSL | .decfSL => .dec .l .sl
  | .decSU | .decfSU => .dec .u .su

/-- The column "length n" of the opcode map (R68): none where the instance lacks the parameter. -/
def Instr.length (i : Instr) (s : Machine.State) : Option Nat :=
  match i with
  | .encL | .encU | .dec | .decSL | .decSU => some s.len.toNat
  | .encfL | .encfU => s.inst.encFixedN
  | .decf | .decfSL | .decfSU => s.inst.decFixedN

/-- The slice command with the same case or mode (R93). -/
def Instr.slice : Instr → Instr
  | .encL | .encfL => .encL
  | .encU | .encfU => .encU
  | .dec | .decf => .dec
  | .decSL | .decfSL => .decSL
  | .decSU | .decfSU => .decSU

namespace Machine

/-- The elements `IN[0 .. len-1]` are defined, and are these bytes. -/
def State.inputIs (s : State) (bytes : List Byte) : Prop :=
  ∀ i (h : i < bytes.length), Memory.read s.inBuf i = some bytes[i]

/-- From `t`, the engine's next turn gives `u`, whether the schedule names the engine or the script is empty
(R87, R90). -/
def EngineGives (t u : State) : Prop :=
  (∀ rest, step { t with script := .engine :: rest } = .next { u with script := rest }) ∧
    step { t with script := [] } = .next { u with script := [] }

/-- What no command writes (R89, R90): LEN and IN, and beside the block's own state the mark, the parameters and
what the host has received. -/
def State.commandKeeps (s u : State) : Prop :=
  u.len = s.len ∧ u.inBuf = s.inBuf ∧ u.mark = s.mark ∧ u.inst = s.inst ∧ u.replies = s.replies

/-- A host access is served in `s` and gives `t`, whatever is still to come (R40). -/
def HostGives (a : Access) (s t : State) : Prop :=
  ∀ rest, step { s with script := .access a :: rest } = .next { t with script := rest }

/-- A host access is refused in `s`: the refusal mark is set if it was clear, and nothing else changes (R40, R122,
R123; assumption 5), the mark with the first refusal's reason (assumption 7). -/
def HostRefused (a : Access) (s : State) (r : Refusal) : Prop :=
  HostGives a s { s with mark := s.mark.or (some r) }

/-- The block has reported a result and is idle (R90). -/
def State.reports (u : State) (code : ResultCode) (pos outLen : Nat) : Prop :=
  u.busy = false ∧ u.pending = none ∧ u.result = code ∧ u.errPos.toNat = pos ∧ u.outLen.toNat = outLen

/-- No element of OUT is defined (R30). -/
def State.outUndefined (s : State) : Prop := ∀ j, Memory.read s.outBuf j = none

/-- The pending record agrees with the accepted command word (R33, R69): its job, its length where an instance
parameter fixes it, and the capacity bound of R88. -/
def State.pendingAgrees (s : State) (p : Pending) : Prop :=
  p.n ≤ s.inst.inCap ∧
    ∃ i, s.cmd = encode i ∧ p.job = i.job ∧ (i.slice ≠ i → i.length s = some p.n)

/-- The invariant: the buffers are canonical and in range, and the registers agree with
each other and with the pending record. That the instance is legal needs no clause: `State.inst` holds legal
parameters only (R8). -/
structure State.Inv (s : State) : Prop where
  /-- R31: canonical form. -/
  inWf : Memory.wf s.inBuf
  /-- R29. -/
  inBelow : Memory.below s.inst.inCap s.inBuf
  /-- R45: OUT is defined exactly below OUT_LEN. -/
  outExact : s.outBuf.map Prod.fst = List.range s.outLen.toNat
  /-- R30. -/
  outFits : s.outLen.toNat ≤ 2 * s.inst.inCap
  /-- R33. -/
  busyPending : s.busy = s.pending.isSome
  /-- R33, R69, R88. -/
  pendingOfCmd : ∀ p, s.pending = some p → s.pendingAgrees p
  /-- R26, R89. -/
  busyNoResult : s.busy = true → s.result = .none
  /-- R23: an illegal value is never stored in CMD. -/
  cmdLegal : ∃ i, s.cmd = encode i
  /-- R27. -/
  errPosZero : s.result ≠ .invalidCharacter → s.errPos = 0x00000000#32
  /-- R28. -/
  outLenZero : s.result ≠ .ok → s.outLen = 0x00000000#32
  /-- R116: ODD_LENGTH is raised by the slice decodes only. -/
  oddFrom : s.result = .oddLength → s.cmd = encode .dec ∨ s.cmd = encode .decSL ∨ s.cmd = encode .decSU
  /-- R116, R117: INVALID_CHARACTER is raised by decodes only, at a position in IN. -/
  invalidFrom : s.result = .invalidCharacter →
    s.errPos.toNat < s.inst.inCap ∧ ∃ i c m, s.cmd = encode i ∧ i.job = .dec c m

/-- The elements of IN whose values are known after an event, from those known in `s` before it: a served write
of IN adds its element, RST leaves none (R44, R130, R143). -/
def Event.known (s : State) (known : List Nat) : Event → List Nat
  | .rst => []
  | .engine => known
  | .access (.read _ _ _) => known
  | .access (.write .reg _ _) => known
  | .access (.write .outBuf _ _) => known
  | .access (.write .inBuf k d) =>
    match writeIn k d s with
    | .next _ => k :: known
    | .fault _ => known
    | .refused _ => known

/-- If `t` follows `s` by a START, `IN[0 .. n-1]` of the command started is among the known elements (R143). -/
def State.startKnown (s t : State) (known : List Nat) : Bool :=
  match s.busy, t.pending with
  | false, some p => (List.range p.n).all fun k => known.contains k
  | _, _ => true

/-- R143 (3), for the program `script` from `s` on: at each START every element the command will read is known,
where `known` lists the elements whose values are known already. A refused START reads nothing. -/
def readsKnown : List Event → List Nat → State → Bool
  | [], _, _ => true
  | e :: rest, known, s =>
    match step { s with script := e :: rest } with
    | .next t => s.startKnown t known && readsKnown rest (e.known s known) t
    | .fault _ => false
    | .refused _ => false

/-- The launch premise `clean_launch` (R143), for the program in the script and a claim whose premises give the
values `given` to elements of IN. -/
def State.cleanLaunch (s : State) (given : List Host.Cell) : Prop :=
  s.mark = none ∧ s.busy = false ∧ s.pending = none ∧
    (∀ c ∈ given, Memory.read s.inBuf c.1 = some c.2) ∧
    readsKnown s.script (given.map Prod.fst) s = true

/-- A finished run (R141): nothing left to send, BUSY = 0, the mark clear. -/
def State.finished (s : State) : Prop := s.script = [] ∧ s.busy = false ∧ s.mark = none

/-- A refused run (R141). -/
def State.refusedRun (s : State) : Prop := s.mark ≠ none

end Machine

end Sys2Proof
end

