-- ==== Sys2Proof/Certificates/Slice0/Obligations.lean ====
section
/-! DEFINITION. The statements for the provers. `exec i s` is the host's write of the command's word to CMD
(START, R88, R89); `EngineGives t u` is the engine's next turn (COMPLETE, R90); the two together are a command's
whole effect. -/

open Sys2Proof Sys2Proof.Machine

/-! ### The command word -/

/-- R68: the word of each row of the opcode map, written out from the fields of R62 to R67, decodes to the row's
command. -/
def Obligations.TableWordsDecodeToTheirCommands : Prop :=
  decode 0b00000000000000000000000000000000#32 = .ok .encL ∧
  decode 0b00000000000000000000000000000010#32 = .ok .encU ∧
  decode 0b00000000000000000000000000001000#32 = .ok .encfL ∧
  decode 0b00000000000000000000000000001010#32 = .ok .encfU ∧
  decode 0b00000000000000000000000000000001#32 = .ok .dec ∧
  decode 0b00000000000000000000000000000101#32 = .ok .decSL ∧
  decode 0b00000000000000000000000000000111#32 = .ok .decSU ∧
  decode 0b00000000000000000000000000001001#32 = .ok .decf ∧
  decode 0b00000000000000000000000000001101#32 = .ok .decfSL ∧
  decode 0b00000000000000000000000000001111#32 = .ok .decfSU

/-- R68: of all 2^32 words, the decoder accepts for a command its one encoded word and no other, so decode and
encode agree in both directions and every other word is reserved. -/
def Obligations.DecodeAcceptsExactlyTheEncodedWord : Prop :=
  ∀ (w : Word) (i : Instr), decode w = .ok i ↔ w = encode i

/-- R70: a word is reserved exactly when it is none of the ten, exactly when it is one of the listed values or
has a bit of [31:4] set; its write to CMD of an idle block is refused with RESERVED_COMMAND. What a step makes of a
refused access is the model's choice (assumptions 5, 7). -/
def Obligations.ReservedWordsAreExactlyTheListed : Prop :=
  (∀ w : Word, (∃ r, decode w = .error r) ↔ ∀ i, w ≠ encode i) ∧
  (∀ w : Word, (∃ r, decode w = .error r) ↔
    w = 0x00000003#32 ∨ w = 0x0000000B#32 ∨ w = 0x00000004#32 ∨ w = 0x00000006#32 ∨ w = 0x0000000C#32 ∨
      w = 0x0000000E#32 ∨ w.extractLsb' 4 28 ≠ 0#28) ∧
  ∀ (s : State) (w : Word) (r : Reserved), decode w = .error r → s.busy = false →
    HostRefused (.write .reg 0x00 (.word w)) s .reservedCommand

/-- R69: the pending record of a started command, from the bits of the word. -/
def Obligations.PendingFieldsComeFromTheWordBits : Prop :=
  ∀ (s t : State) (w : Word) (i : Instr), decode w = .ok i → exec i s = .next t →
    ∃ p, t.pending = some p ∧
      p.job = (if w.getLsbD 0 = false then .enc (if w.getLsbD 1 = false then .l else .u)
               else .dec (if w.getLsbD 1 = false then .l else .u)
                 (if w.getLsbD 2 = false then .i else if w.getLsbD 1 = false then .sl else .su)) ∧
      (if w.getLsbD 3 = false then some s.len.toNat
       else if w.getLsbD 0 = false then s.inst.encFixedN else s.inst.decFixedN) = some p.n

/-- R42, R88: the step at which the host writes a decoded command's word to CMD is that command's `exec`; a
refusal sets the mark. The same of `withFetchWord`. The model's choices here are how a program comes to run
(assumption 10), the script (assumption 1) and what a step makes of a refusal (assumptions 5, 7). -/
def Obligations.StepRunsTheDecodedCommand : Prop :=
  ∀ (s : State) (w : Word) (i : Instr) (rest : List Event), decode w = .ok i →
    step { s with script := .access (.write .reg 0x00 (.word w)) :: rest } =
      (match exec i { s with script := rest } with
       | .next t => .next t
       | .fault f => .fault f
       | .refused r => .next { s with script := rest, mark := s.mark.or (some r) }) ∧
    step (s.withFetchWord 32 w.toNat) =
      step { s with script := .access (.write .reg 0x00 (.word w)) :: s.script }

/-! ### START -/

/-- R89: every command, on an idle block with a length within the capacity, starts. The next state is given
whole: LEN, IN and everything else unnamed is unchanged. -/
def Obligations.EveryCommandStarts : Prop :=
  ∀ (i : Instr) (s : State) (n : Nat), s.busy = false → i.length s = some n → n ≤ s.inst.inCap →
    exec i s = .next { s with
      cmd := encode i, pending := some ⟨i.job, n⟩, busy := true, result := .none,
      errPos := 0x00000000#32, outLen := 0x00000000#32, outBuf := [] }

/-- R88: the two refusals of START, and that on an idle block there is no other. -/
def Obligations.StartRefusesForLengthOnly : Prop :=
  ∀ (i : Instr) (s : State), s.busy = false →
    (i.length s = none → exec i s = .refused .fixedAbsent) ∧
    (∀ n, i.length s = some n → s.inst.inCap < n → exec i s = .refused .lengthOverCapacity) ∧
    ∀ n, i.length s = some n → n ≤ s.inst.inCap → ∃ t, exec i s = .next t

/-- R6, R88: on a legal instance a fixed-size command is never refused for length, so an idle block that has the
parameter starts it. -/
def Obligations.FixedCommandsFitOnLegalInstances : Prop :=
  ∀ (i : Instr) (s : State), s.busy = false → i.slice ≠ i →
    i.availableOn s.inst.toParams = true → ∃ t, exec i s = .next t

/-- R42, R135: while BUSY = 1 any write to CMD, of a legal or a reserved word, is refused (by a step: assumptions 5,
7). -/
def Obligations.CommandWhileBusyIsRefused : Prop :=
  ∀ (s : State) (w : Word), s.busy = true → HostRefused (.write .reg 0x00 (.word w)) s .commandWhileBusy

/-! ### The commands' results: START and COMPLETE together -/

/-- R98 to R101: ENC.L, ENC.U, ENCF.L, ENCF.U on defined input: the two digits of each byte, high nibble first,
OUT_LEN = 2n, RESULT = OK, and nothing else changed. -/
def Obligations.EncodeCommandsWriteTheDigits : Prop :=
  ∀ (i : Instr) (c : Case) (s : State) (bytes : List Byte), i.job = .enc c →
    s.busy = false → i.length s = some bytes.length → bytes.length ≤ s.inst.inCap → s.inputIs bytes →
    ∃ t u, exec i s = .next t ∧ t.busy = true ∧ EngineGives t u ∧
      u.reports .ok 0 (2 * bytes.length) ∧ u.cmd = encode i ∧ s.commandKeeps u ∧ u.draws = s.draws ∧
      (∀ k (h : k < bytes.length),
        Memory.read u.outBuf (2 * k) = some (alphabet c (hiNibble bytes[k])) ∧
        Memory.read u.outBuf (2 * k + 1) = some (alphabet c (loNibble bytes[k]))) ∧
      ∀ j, 2 * bytes.length ≤ j → Memory.read u.outBuf j = none

/-- R106 to R111: the six decode commands on an even number of defined characters that the mode accepts: the
packed pairs, OUT_LEN = n/2, RESULT = OK, and nothing else changed. -/
def Obligations.DecodeCommandsPackValidInput : Prop :=
  ∀ (i : Instr) (c : Case) (m : Mode) (s : State) (bytes : List Byte), i.job = .dec c m →
    s.busy = false → i.length s = some bytes.length → bytes.length ≤ s.inst.inCap →
    s.inputIs bytes → bytes.length % 2 = 0 → (∀ k (h : k < bytes.length), (decLUT m bytes[k]).isSome) →
    ∃ t u, exec i s = .next t ∧ t.busy = true ∧ EngineGives t u ∧
      u.reports .ok 0 (bytes.length / 2) ∧ u.cmd = encode i ∧ s.commandKeeps u ∧ u.draws = s.draws ∧
      (∀ k (h : 2 * k + 1 < bytes.length), ∃ hn ln,
        decLUT m bytes[2 * k] = some hn ∧ decLUT m bytes[2 * k + 1] = some ln ∧
        Memory.read u.outBuf k = some (pack hn ln)) ∧
      ∀ j, bytes.length / 2 ≤ j → Memory.read u.outBuf j = none

/-- R103, R106 to R108, R119: DEC, DEC.SL, DEC.SU with an odd LEN report ODD_LENGTH whatever IN holds, undefined
elements included, with no output. -/
def Obligations.SliceDecodesReportOddLength : Prop :=
  ∀ (i : Instr) (s : State), i = .dec ∨ i = .decSL ∨ i = .decSU →
    s.busy = false → s.len.toNat % 2 = 1 → s.len.toNat ≤ s.inst.inCap →
    ∃ t u, exec i s = .next t ∧ t.busy = true ∧ EngineGives t u ∧
      u.reports .oddLength 0 0 ∧ u.cmd = encode i ∧ s.commandKeeps u ∧ u.outUndefined

/-- R104, R106 to R111, R119: the six decode commands on an even number of defined characters report the first
one the mode does not accept, with no output. -/
def Obligations.DecodeCommandsReportTheFirstInvalid : Prop :=
  ∀ (i : Instr) (c : Case) (m : Mode) (s : State) (bytes : List Byte) (j : Nat), i.job = .dec c m →
    s.busy = false → i.length s = some bytes.length → bytes.length ≤ s.inst.inCap →
    s.inputIs bytes → bytes.length % 2 = 0 → (∃ h : j < bytes.length, decLUT m bytes[j] = none) →
    (∀ k (h : k < bytes.length), k < j → decLUT m bytes[k] ≠ none) →
    ∃ t u, exec i s = .next t ∧ t.busy = true ∧ EngineGives t u ∧
      u.reports .invalidCharacter j 0 ∧ u.cmd = encode i ∧ s.commandKeeps u ∧ u.draws = s.draws ∧ u.outUndefined

/-- R97: encode is total, its length is fixed, and an encode command completes with OK whatever IN holds,
undefined elements included. -/
def Obligations.EncodeNeverFails : Prop :=
  (∀ (c : Case) (bs : List Byte), (encodeSeq c bs).length = 2 * bs.length) ∧
  ∀ (i : Instr) (c : Case) (s : State) (n : Nat), i.job = .enc c → s.busy = false →
    i.length s = some n → n ≤ s.inst.inCap →
    ∃ t u, exec i s = .next t ∧ EngineGives t u ∧ u.reports .ok 0 (2 * n)

/-- R31, R90: the engine has no step while BUSY = 0. While BUSY = 1 its step is COMPLETE, for any pending command
and any IN: an undefined element reads as some byte, and the result is that of the byte sequence so read, in the
three cases of R90. -/
def Obligations.CompletionReportsTheComputedResult : Prop :=
  (∀ s : State, s.busy = false → EngineGives s s) ∧
  ∀ (s : State) (p : Pending), s.busy = true → s.pending = some p → p.n ≤ s.inst.inCap →
    ∃ (bytes : List Byte) (u : State), bytes.length = p.n ∧
      (∀ k (h : k < bytes.length) b, Memory.read s.inBuf k = some b → bytes[k] = b) ∧
      EngineGives s u ∧ u.cmd = s.cmd ∧ s.commandKeeps u ∧
      (∀ out, p.job.compute bytes = .ok out →
        u.reports .ok 0 out.length ∧ ∀ j, Memory.read u.outBuf j = out[j]?) ∧
      (p.job.compute bytes = .error .oddLength → u.reports .oddLength 0 0 ∧ u.outUndefined) ∧
      ∀ pos, p.job.compute bytes = .error (.invalidCharacter pos) →
        u.reports .invalidCharacter pos 0 ∧ u.outUndefined

/-- R31, R96: whatever undefined elements read as, every byte of an encode command's output is a digit of its
alphabet. -/
def Obligations.EncodeOutputStaysInTheAlphabet : Prop :=
  ∀ (i : Instr) (c : Case) (s : State) (n : Nat), i.job = .enc c → s.busy = false →
    i.length s = some n → n ≤ s.inst.inCap →
    ∃ t u, exec i s = .next t ∧ EngineGives t u ∧
      ∀ j, j < 2 * n → ∃ nib, Memory.read u.outBuf j = some (alphabet c nib)

/-- R93: a command gives the same result as its slice command with LEN = its length on the same IN: whatever is
drawn where the input is all defined. Where it is not, the agreement is for the same draws, which the model's form of
draws lets it say (assumption 4) and R93 does not. -/
def Obligations.FixedAndSlicePathsAgree : Prop :=
  ∀ (i : Instr) (s : State) (n d : Nat), s.busy = false → i.length s = some n →
    n ≤ s.inst.inCap → (d = s.draws ∨ ∃ bytes, bytes.length = n ∧ s.inputIs bytes) →
    ∃ t u t' u', exec i s = .next t ∧ EngineGives t u ∧
      exec i.slice { s with len := BitVec.ofNat 32 n, draws := d } = .next t' ∧ EngineGives t' u' ∧
      u'.result = u.result ∧ u'.errPos = u.errPos ∧ u'.outLen = u.outLen ∧ u'.outBuf = u.outBuf ∧
      u'.inBuf = u.inBuf

/-- R53, R92: two blocks with the same pending command and the same defined input below its length report the
same, whatever else their states hold. -/
def Obligations.ResultDependsOnOperandsOnly : Prop :=
  ∀ (s s' : State) (p : Pending) (bytes : List Byte), s.busy = true → s'.busy = true →
    s.pending = some p → s'.pending = some p → bytes.length = p.n → s.inputIs bytes → s'.inputIs bytes →
    ∃ u u', EngineGives s u ∧ EngineGives s' u' ∧
      u'.result = u.result ∧ u'.errPos = u.errPos ∧ u'.outLen = u.outLen ∧ u'.outBuf = u.outBuf

/-- R91: a completion that reports an error leaves no output byte defined. -/
def Obligations.FailedCommandLeavesNoOutput : Prop :=
  ∀ (s u : State), s.busy = true → EngineGives s u →
    u.result = .oddLength ∨ u.result = .invalidCharacter → u.outLen = 0x00000000#32 ∧ u.outUndefined

/-- R112: a fixed-size decode on a legal instance never reports ODD_LENGTH. -/
def Obligations.FixedDecodesNeverReportOddLength : Prop :=
  ∀ (i : Instr) (s t u : State), i = .decf ∨ i = .decfSL ∨ i = .decfSU →
    exec i s = .next t → EngineGives t u → u.result = .ok ∨ u.result = .invalidCharacter

/-- R25, R138: a LEN write while BUSY = 1 does not change what the command in progress reports, for the same draws
(assumption 4) where its input is not all defined. -/
def Obligations.LengthIsLatchedAtStart : Prop :=
  ∀ (s u : State) (v : Word), s.busy = true → EngineGives s u →
    ∃ s1, HostGives (.write .reg 0x04 (.word v)) s s1 ∧ EngineGives s1 { u with len := v }

/-! ### The datapath -/

/-- R76: the codes of the two alphabets. -/
def Obligations.AlphabetCodes : Prop :=
  ∀ n : Nibble,
    (alphabet .l n).toNat = (if n.toNat < 10 then 0x30 + n.toNat else 0x61 + (n.toNat - 10)) ∧
    (alphabet .u n).toNat = (if n.toNat < 10 then 0x30 + n.toNat else 0x41 + (n.toNat - 10))

/-- R79, R80, R81: the valid entries of the strict tables are the characters of one alphabet, those of `DEC_I` of
either, each with its own nibble. -/
def Obligations.DecodeTablesInvertTheAlphabets : Prop :=
  ∀ (ch : Byte) (n : Nibble),
    (decLUT .sl ch = some n ↔ ch = alphabet .l n) ∧
    (decLUT .su ch = some n ↔ ch = alphabet .u n) ∧
    (decLUT .i ch = some n ↔ ch = alphabet .l n ∨ ch = alphabet .u n)

/-- R83: the packer gives 16h + l. -/
def Obligations.PackIsSixteenHighPlusLow : Prop :=
  ∀ h l : Nibble, (pack h l).toNat = 16 * h.toNat + l.toNat

/-- R84: the decode lookup of the encoder's two characters gives the byte's nibbles, in mode I and in the strict
mode of the same case, and the packer gives the byte back. -/
def Obligations.LookupsInvertEachOther : Prop :=
  ∀ b : Byte,
    (∀ c, decLUT .i (encLUT c b).1 = some (hiNibble b) ∧ decLUT .i (encLUT c b).2 = some (loNibble b)) ∧
    decLUT .sl (encLUT .l b).1 = some (hiNibble b) ∧ decLUT .sl (encLUT .l b).2 = some (loNibble b) ∧
    decLUT .su (encLUT .u b).1 = some (hiNibble b) ∧ decLUT .su (encLUT .u b).2 = some (loNibble b) ∧
    pack (hiNibble b) (loNibble b) = b

/-- R86: of the 256 character codes, mode I accepts 22 and each strict mode 16. -/
def Obligations.AcceptanceCounts : Prop :=
  ((List.range 256).filter fun k => (decLUT .i (BitVec.ofNat 8 k)).isSome).length = 22 ∧
  ((List.range 256).filter fun k => (decLUT .sl (BitVec.ofNat 8 k)).isSome).length = 16 ∧
  ((List.range 256).filter fun k => (decLUT .su (BitVec.ofNat 8 k)).isSome).length = 16

/-- R48: input byte `k` gives the output characters at `2k` and `2k+1`, high nibble first. -/
def Obligations.EncodeOutputElementOrder : Prop :=
  ∀ (c : Case) (s : List Byte) (k : Nat) (h : k < s.length),
    (encodeSeq c s)[2 * k]? = some (alphabet c (hiNibble s[k])) ∧
    (encodeSeq c s)[2 * k + 1]? = some (alphabet c (loNibble s[k]))

/-- R103, R104: the closed form of DECODE: the length check first, else the first invalid character, else the
packed pairs. -/
def Obligations.DecodeClosedForm : Prop :=
  ∀ (m : Mode) (s : List Byte),
    (s.length % 2 = 1 → decodeSeq m s = .error .oddLength) ∧
    (s.length % 2 = 0 → ∀ j, decodeSeq m s = .error (.invalidCharacter j) ↔
      (∃ h : j < s.length, decLUT m s[j] = none) ∧ ∀ k (h : k < s.length), k < j → decLUT m s[k] ≠ none) ∧
    (s.length % 2 = 0 → ∀ out, decodeSeq m s = .ok out ↔
      out.length = s.length / 2 ∧ ∀ k (h : 2 * k + 1 < s.length), ∃ hn ln,
        decLUT m s[2 * k] = some hn ∧ decLUT m s[2 * k + 1] = some ln ∧ out[k]? = some (pack hn ln))

/-- R105: an accepted input had every character looked up: none skipped, none coerced. -/
def Obligations.DecodeSkipsNoCharacter : Prop :=
  ∀ (m : Mode) (s out : List Byte), decodeSeq m s = .ok out →
    s.length = 2 * out.length ∧ ∀ ch ∈ s, ∃ nib, decLUT m ch = some nib

/-- R114: decoding an encoding gives the bytes back, in mode I and in the strict mode of the same case; the
upper-case strict mode rejects a lower-case encoding with a letter digit. -/
def Obligations.RoundTripOfEveryByteSequence : Prop :=
  ∀ b : List Byte,
    decodeSeq .i (encodeSeq .l b) = .ok b ∧ decodeSeq .i (encodeSeq .u b) = .ok b ∧
    decodeSeq .sl (encodeSeq .l b) = .ok b ∧ decodeSeq .su (encodeSeq .u b) = .ok b ∧
    ((∃ x ∈ b, 10 ≤ (hiNibble x).toNat ∨ 10 ≤ (loNibble x).toNat) →
      ∃ e, decodeSeq .su (encodeSeq .l b) = .error e)

/-- R114 on the block: run an encode command, put its OUT into IN of an idle block, and run a decode command of
mode I or of the same letter case on it: OUT holds the bytes first encoded. -/
def Obligations.EncodeThenDecodeOnTheBlock : Prop :=
  ∀ (i d : Instr) (c c' : Case) (m : Mode) (s s' : State) (b : List Byte),
    i.job = .enc c → d.job = .dec c' m → m = .i ∨ (m = .sl ∧ c = .l) ∨ (m = .su ∧ c = .u) →
    s.busy = false → i.length s = some b.length → b.length ≤ s.inst.inCap →
    s.inputIs b → s'.busy = false → d.length s' = some (2 * b.length) →
    2 * b.length ≤ s'.inst.inCap →
    ∃ t u, exec i s = .next t ∧ EngineGives t u ∧
      ((∀ j, j < 2 * b.length → Memory.read s'.inBuf j = Memory.read u.outBuf j) →
        ∃ t' u', exec d s' = .next t' ∧ EngineGives t' u' ∧ u'.reports .ok 0 b.length ∧
          ∀ j, Memory.read u'.outBuf j = b[j]?)

/-- R113: mode I gives the same result on a valid text, its upper-case and its lower-case form; the strict modes
do not. -/
def Obligations.DecodeIgnoresLetterCase : Prop :=
  (∀ t : List Byte, (∀ ch ∈ t, (decLUT .i ch).isSome) →
    decodeSeq .i (t.map upperCode) = decodeSeq .i t ∧ decodeSeq .i (t.map lowerCode) = decodeSeq .i t) ∧
  (∃ t : List Byte, (∀ ch ∈ t, (decLUT .i ch).isSome) ∧ decodeSeq .sl (t.map upperCode) ≠ decodeSeq .sl t) ∧
  ∃ t : List Byte, (∀ ch ∈ t, (decLUT .i ch).isSome) ∧ decodeSeq .su (t.map lowerCode) ≠ decodeSeq .su t

/-! ### The whole machine -/

/-- The state after reset of every legal instance meets the invariant, and so does `State.reset`, whose parameters are
the model's choice (assumption 2). -/
def Obligations.ResetMeetsTheInvariant : Prop :=
  (∀ p : LegalParams, (State.resetOf p).Inv) ∧ State.reset.Inv

/-- Every step keeps the invariant: from any state that meets it, whatever the script. A step at a refused access is
the model's choice (assumption 5). -/
def Obligations.StepKeepsTheInvariant : Prop :=
  ∀ s t : State, s.Inv → step s = .next t → t.Inv

/-- R115: from a state that meets the invariant a step always answers next: no fault, no stop. That a step goes on
after a refused host access is the model's choice (assumption 5). -/
def Obligations.NoStepStopsUnderTheInvariant : Prop :=
  ∀ s : State, s.Inv → ∃ t, step s = .next t

/-- R139, R141: from every state that meets the invariant the run comes to rest: one step more than the script has
events, and the block is idle with nothing left to do. The run is then finished or refused, and refused if it was
before. The completion of a busy block once the script is empty is the model's fairness (assumption 1), and that a
run goes on after a refused access is the model's choice (assumption 5). -/
def Obligations.EveryRunComesToRest : Prop :=
  ∀ s : State, s.Inv →
    ∃ t : State, core.run (s.script.length + 1) s = .next t ∧ t.busy = false ∧ t.script = [] ∧ t.Inv ∧
      (t.finished ∨ t.refusedRun) ∧ (s.refusedRun → t.refusedRun)

/-- R123: the refusal mark, once set, is never cleared, not even by reset, and it is set only by a refused host
access. That it carries the first refusal's reason, which never changes, is the model's choice (assumption 7), and so
is that a step goes on after a refusal (assumption 5). -/
def Obligations.RefusalMarkIsSticky : Prop :=
  ∀ s t : State, step s = .next t →
    (∀ r, s.mark = some r → t.mark = some r) ∧
    (t.mark ≠ s.mark → ∃ a rest r, s.script = .access a :: rest ∧
      serve a { s with script := rest } = .refused r ∧ t.mark = some r)

/-- R29, R53, R134: IN changes only by reset or by an 8-bit host write in range to an idle block. -/
def Obligations.InputIsWrittenByTheHostOnly : Prop :=
  ∀ s t : State, step s = .next t → t.inBuf ≠ s.inBuf →
    (∃ rest, s.script = .rst :: rest) ∨
    ∃ k v rest, s.script = .access (.write .inBuf k (.byte v)) :: rest ∧ k < s.inst.inCap ∧ s.busy = false

/-- R30, R46: OUT changes only by reset, by the START of a legal command on an idle block, or by the engine's
completion: no host write reaches it. -/
def Obligations.OutputIsWrittenByTheBlockOnly : Prop :=
  ∀ s t : State, step s = .next t → t.outBuf ≠ s.outBuf →
    (∃ rest, s.script = .rst :: rest) ∨
    (∃ w i rest, s.script = .access (.write .reg 0x00 (.word w)) :: rest ∧ decode w = .ok i ∧ s.busy = false) ∨
    (s.busy = true ∧ (s.script = [] ∨ ∃ rest, s.script = .engine :: rest))

/-- R25: LEN changes only by reset or by a 32-bit host write to offset 0x04, which stores its value. -/
def Obligations.LenIsWrittenByTheHostOnly : Prop :=
  ∀ s t : State, step s = .next t → t.len ≠ s.len →
    (∃ rest, s.script = .rst :: rest) ∨
    ∃ v rest, s.script = .access (.write .reg 0x04 (.word v)) :: rest ∧ t.len = v

/-- R35, R87: BUSY is set only by a host write of a legal command word to CMD. -/
def Obligations.OnlyACommandWriteSetsBusy : Prop :=
  ∀ s t : State, step s = .next t → s.busy = false → t.busy = true →
    ∃ w i rest, s.script = .access (.write .reg 0x00 (.word w)) :: rest ∧ decode w = .ok i ∧ t.cmd = w

/-- R35, R90, R131: BUSY is cleared only by the engine's completion, which then reports a result, or by reset. -/
def Obligations.OnlyCompletionOrResetClearsBusy : Prop :=
  ∀ s t : State, step s = .next t → s.busy = true → t.busy = false →
    (∃ rest, s.script = .rst :: rest) ∨
    ((s.script = [] ∨ ∃ rest, s.script = .engine :: rest) ∧ t.result ≠ .none)

/-- R37: no step changes the parameters. -/
def Obligations.ParametersNeverChange : Prop :=
  ∀ s t : State, step s = .next t → t.inst = s.inst

/-- R26: STATUS reads as one of 0x0 to 0x4. -/
def Obligations.StatusReadsOneOfFiveValues : Prop :=
  ∀ s : State, s.Inv →
    s.statusWord = 0x0#32 ∨ s.statusWord = 0x1#32 ∨ s.statusWord = 0x2#32 ∨ s.statusWord = 0x3#32 ∨
      s.statusWord = 0x4#32

/-- R136: while BUSY = 1 the host sees no result: STATUS = 0x4, ERR_POS = OUT_LEN = 0, OUT undefined. -/
def Obligations.BusyBlockShowsNoResult : Prop :=
  ∀ s : State, s.Inv → s.busy = true →
    s.statusWord = 0x00000004#32 ∧ s.errPos = 0x00000000#32 ∧ s.outLen = 0x00000000#32 ∧ s.outUndefined

/-- R45, R137: OUT is defined exactly below OUT_LEN. -/
def Obligations.OutputIsDefinedExactlyBelowOutLen : Prop :=
  ∀ s : State, s.Inv → ∀ j, (Memory.read s.outBuf j).isSome ↔ j < s.outLen.toNat

/-! ### The host port -/

/-- R41, R26: a 32-bit read at each of the five offsets gives the register's value and changes nothing, BUSY or
not. STATUS is given by its fields. `replies` is the host's own record of what it has read (assumption 3). -/
def Obligations.RegisterReadsReturnTheRegisters : Prop :=
  ∀ s : State,
    HostGives (.read .reg 0x00 .w32) s { s with replies := .word s.cmd :: s.replies } ∧
    HostGives (.read .reg 0x04 .w32) s { s with replies := .word s.len :: s.replies } ∧
    (∃ v : Word, HostGives (.read .reg 0x08 .w32) s { s with replies := .word v :: s.replies } ∧
      (v.extractLsb' 0 2).toNat = (match s.result with
        | .none => 0
        | .ok => 1
        | .oddLength => 2
        | .invalidCharacter => 3) ∧
      v.getLsbD 2 = s.busy ∧ v.extractLsb' 3 29 = 0#29) ∧
    HostGives (.read .reg 0x0C .w32) s { s with replies := .word s.errPos :: s.replies } ∧
    HostGives (.read .reg 0x10 .w32) s { s with replies := .word s.outLen :: s.replies }

/-- R25, R42: a 32-bit write of LEN stores any value, at any time, and changes nothing else. -/
def Obligations.LenWriteStoresAnyValue : Prop :=
  ∀ (s : State) (v : Word), HostGives (.write .reg 0x04 (.word v)) s { s with len := v }

/-- R43, R44: a write to IN of an idle block defines that element, which then reads as written; every other
element and everything else is unchanged. -/
def Obligations.InputReadsAsWritten : Prop :=
  ∀ (s : State) (k : Nat) (v : Byte), s.busy = false → k < s.inst.inCap →
    ∃ t : State, HostGives (.write .inBuf k (.byte v)) s t ∧
      HostGives (.read .inBuf k .w8) t { t with replies := .byte v :: t.replies } ∧
      (∀ j, j ≠ k → Memory.read t.inBuf j = Memory.read s.inBuf j) ∧ t = { s with inBuf := t.inBuf }

/-- R44, R134: a write to IN while BUSY = 1 is refused (by a step: assumptions 5, 7). -/
def Obligations.InputWriteWhileBusyIsRefused : Prop :=
  ∀ (s : State) (k : Nat) (v : Byte), s.busy = true → k < s.inst.inCap →
    HostRefused (.write .inBuf k (.byte v)) s .inWriteWhileBusy

/-- R31, R43, R45: an 8-bit read in range of IN or OUT gives the element if it is defined, else some byte, at any
time; the block is unchanged. `replies` is the host's record (assumption 3), `draws` counts the free values used
(assumption 4). -/
def Obligations.BufferReadsReturnTheElement : Prop :=
  ∀ (s : State) (k : Nat),
    (k < s.inst.inCap →
      (∀ b, Memory.read s.inBuf k = some b →
        HostGives (.read .inBuf k .w8) s { s with replies := .byte b :: s.replies }) ∧
      (Memory.read s.inBuf k = none → ∃ b,
        HostGives (.read .inBuf k .w8) s
          { s with replies := .byte b :: s.replies, draws := s.draws + 1 })) ∧
    (k < 2 * s.inst.inCap →
      (∀ b, Memory.read s.outBuf k = some b →
        HostGives (.read .outBuf k .w8) s { s with replies := .byte b :: s.replies }) ∧
      (Memory.read s.outBuf k = none → ∃ b,
        HostGives (.read .outBuf k .w8) s
          { s with replies := .byte b :: s.replies, draws := s.draws + 1 }))

/-- R46: each refused shape, with its reason, in every state. Where two reasons of R46 apply, which is named is the
model's choice (assumption 6); a refused access sets the mark and changes nothing else (assumption 5), and the mark
keeps the first reason (assumption 7). -/
def Obligations.IllegalAccessesAreRefusedByName : Prop :=
  ∀ s : State,
    (∀ off, HostRefused (.read .reg off .w8) s .badWidth) ∧
    (∀ off v, HostRefused (.write .reg off (.byte v)) s .badWidth) ∧
    (∀ off, off ∉ [0x00, 0x04, 0x08, 0x0C, 0x10] →
      HostRefused (.read .reg off .w32) s .badOffset ∧
      ∀ v, HostRefused (.write .reg off (.word v)) s .badOffset) ∧
    (∀ k, HostRefused (.read .inBuf k .w32) s .badWidth ∧ HostRefused (.read .outBuf k .w32) s .badWidth ∧
      ∀ v, HostRefused (.write .inBuf k (.word v)) s .badWidth) ∧
    (∀ k, s.inst.inCap ≤ k → HostRefused (.read .inBuf k .w8) s .indexOutOfRange ∧
      ∀ v, HostRefused (.write .inBuf k (.byte v)) s .indexOutOfRange) ∧
    (∀ k, 2 * s.inst.inCap ≤ k → HostRefused (.read .outBuf k .w8) s .indexOutOfRange) ∧
    (∀ k d, HostRefused (.write .outBuf k d) s .readOnlyWrite) ∧
    ∀ v, HostRefused (.write .reg 0x08 (.word v)) s .readOnlyWrite ∧
      HostRefused (.write .reg 0x0C (.word v)) s .readOnlyWrite ∧
      HostRefused (.write .reg 0x10 (.word v)) s .readOnlyWrite

/-- R40 to R46: an access of a legal shape that is a read or a LEN write is served in every state, and one of no
legal shape is refused in every state (by a step: assumptions 5, 7). -/
def Obligations.LegalShapesAreServed : Prop :=
  ∀ (s : State) (a : Access),
    (a.legalShape s.inst.toParams = false → ∃ r, HostRefused a s r) ∧
    (a.legalShape s.inst.toParams = true → ∀ sp off w, a = .read sp off w →
      ∃ v d, HostGives a s { s with replies := v :: s.replies, draws := d }) ∧
    (a.legalShape s.inst.toParams = true → ∀ v, a = .write .reg 0x04 (.word v) → HostGives a s { s with len := v })

/-! ### Reset -/

/-- R36: every component of the state after reset. The parameters of `State.reset` are the model's choice
(assumption 2). -/
def Obligations.ResetStateValues : Prop :=
  ∀ p : LegalParams,
    (State.resetOf p).cmd = 0x00000000#32 ∧ (State.resetOf p).len = 0x00000000#32 ∧
    (State.resetOf p).result = .none ∧ (State.resetOf p).busy = false ∧
    (State.resetOf p).statusWord = 0x00000000#32 ∧ (State.resetOf p).errPos = 0x00000000#32 ∧
    (State.resetOf p).outLen = 0x00000000#32 ∧ (State.resetOf p).pending = none ∧
    (∀ j, Memory.read (State.resetOf p).inBuf j = none) ∧ (State.resetOf p).outUndefined ∧
    some State.reset = Config.inst.build.map State.resetOf

/-- R130: RST puts every component at its reset value in one step, at any time, and keeps the mark. The
parameters are no part of the block's state (R37). That RST keeps what the host has received (assumption 3) and the
count of draws (assumption 4) is the model's choice. -/
def Obligations.ResetInputClearsTheBlock : Prop :=
  ∀ (s : State) (rest : List Event),
    step { s with script := .rst :: rest } = .next { s with
      cmd := 0x00000000#32, len := 0x00000000#32, result := .none, busy := false, errPos := 0x00000000#32,
      outLen := 0x00000000#32, inBuf := [], outBuf := [], pending := none, script := rest }

/-- R131: a command in progress at a reset is abandoned, and nothing of it can be observed after: two blocks that
differ in any register, buffer or pending command are the same after RST. The state after it is given whole, as in
R130. That RST keeps what the host has received (assumption 3) and the count of draws (assumption 4) is the model's
choice. -/
def Obligations.AbandonedCommandIsUnobservable : Prop :=
  ∀ (s s' : State) (rest : List Event), s.busy = true →
    s'.inst = s.inst → s'.mark = s.mark → s'.replies = s.replies → s'.draws = s.draws →
    step { s with script := .rst :: rest } = .next { s with
      cmd := 0x00000000#32, len := 0x00000000#32, result := .none, busy := false, errPos := 0x00000000#32,
      outLen := 0x00000000#32, inBuf := [], outBuf := [], pending := none, script := rest } ∧
    step { s with script := .rst :: rest } = step { s' with script := .rst :: rest }

/-- R143: after RST nothing is in flight, whatever came before, and the mark is clear exactly if no refusal occurred
before it. So the launch is clean exactly if no refusal occurred and the rest of the program writes, before each
START, what the command will read. -/
def Obligations.ResetGivesACleanLaunchUnlessRefused : Prop :=
  ∀ (s t : State) (rest : List Event), step { s with script := .rst :: rest } = .next t →
    t.busy = false ∧ t.pending = none ∧ (t.mark = none ↔ ¬ s.refusedRun) ∧
    (t.cleanLaunch [] ↔ ¬ s.refusedRun ∧ readsKnown rest [] t = true)

/-- R133, R143: on an idle block with a clear mark, the program that fills IN and then runs a command of at most that
many elements is a clean launch with no premise about IN, whatever IN held. -/
def Obligations.BootOrderGivesACleanLaunch : Prop :=
  ∀ (s : State) (bytes : List Byte) (i : Instr) (v : Word) (n polls : Nat), s.mark = none → s.busy = false →
    s.pending = none → bytes.length ≤ s.inst.inCap → n ≤ bytes.length →
    (i.length { s with len := v } = some n →
      { s with script := fillFrom 0 bytes ++ runCmd i v polls }.cleanLaunch []) ∧
    (i.length s = some n → { s with script := fillFrom 0 bytes ++ runFixed i polls }.cleanLaunch [])

/-- R143: in a run from a clean launch no command reads an undefined element of IN, however far the run has come,
past refused accesses too (assumption 5). -/
def Obligations.CleanLaunchCommandsReadDefinedInput : Prop :=
  ∀ (s t : State) (given : List Host.Cell) (k : Nat) (p : Pending), s.cleanLaunch given →
    core.run k s = .next t → t.pending = some p → ∀ j, j < p.n → (Memory.read t.inBuf j).isSome

/-! ### Instances -/

/-- R6, R8: an instance is built exactly if its parameters meet the constraints of R6, with the parameters given, and
every state is one of such an instance: none breaks a constraint at run time. -/
def Obligations.OnlyLegalInstancesAreBuilt : Prop :=
  (∀ p : Params, (∃ q, p.build = some q) ↔
    p.inCap ≤ 2 ^ 31 - 1 ∧ (∀ n, p.encFixedN = some n → n ≤ p.inCap) ∧
      ∀ n, p.decFixedN = some n → n ≤ p.inCap ∧ n % 2 = 0) ∧
  (∀ (p : Params) (q : LegalParams), p.build = some q → q.toParams = p) ∧
  ∀ s : State, s.inst.inCap ≤ 2 ^ 31 - 1 ∧ (∀ n, s.inst.encFixedN = some n → n ≤ s.inst.inCap) ∧
    ∀ n, s.inst.decFixedN = some n → n ≤ s.inst.inCap ∧ n % 2 = 0
end

