-- ==== Sys2Proof/Laws/Datapath.lean ====
section
/-! SUPPORT. The equations of the two sequence functions, and the lookup facts a proof about them needs. -/

namespace Sys2Proof.Machine

@[simp] theorem encodeSeq_nil (c : Case) : encodeSeq c [] = [] := rfl

@[simp] theorem encodeSeq_cons (c : Case) (b : Byte) (bs : List Byte) :
    encodeSeq c (b :: bs) = alphabet c (hiNibble b) :: alphabet c (loNibble b) :: encodeSeq c bs := rfl

@[simp] theorem decodePairs_nil (m : Mode) (pos : Nat) : decodePairs m pos [] = .ok [] := rfl

/-- One pair of the decode loop whose characters are both valid (R102). -/
theorem decodePairs_valid {m : Mode} {pos : Nat} {h l : Byte} {hn ln : Nibble} {rest out : List Byte}
    (hh : decLUT m h = some hn) (hl : decLUT m l = some ln) (hr : decodePairs m (pos + 2) rest = .ok out) :
    decodePairs m pos (h :: l :: rest) = .ok (pack hn ln :: out) := by
  simp [decodePairs, hh, hl, hr]

/-- One pair of the decode loop whose first character is invalid (R102). -/
theorem decodePairs_first {m : Mode} {pos : Nat} {h l : Byte} {rest : List Byte} (hh : decLUT m h = none) :
    decodePairs m pos (h :: l :: rest) = .error (.invalidCharacter pos) := by
  simp [decodePairs, hh]

/-- One pair of the decode loop whose second character is the first invalid one (R102). -/
theorem decodePairs_second {m : Mode} {pos : Nat} {h l : Byte} {hn : Nibble} {rest : List Byte}
    (hh : decLUT m h = some hn) (hl : decLUT m l = none) :
    decodePairs m pos (h :: l :: rest) = .error (.invalidCharacter (pos + 1)) := by
  simp [decodePairs, hh, hl]

/-- One pair of the decode loop before a later error (R102). -/
theorem decodePairs_later {m : Mode} {pos : Nat} {h l : Byte} {hn ln : Nibble} {rest : List Byte} {e : DecodeError}
    (hh : decLUT m h = some hn) (hl : decLUT m l = some ln) (hr : decodePairs m (pos + 2) rest = .error e) :
    decodePairs m pos (h :: l :: rest) = .error e := by
  simp [decodePairs, hh, hl, hr]

/-- What the decode loop can answer: half as many bytes, or an invalid character of the sequence (R102). -/
theorem decodePairs_cases (m : Mode) (pos : Nat) (s : List Byte) :
    (∃ out, decodePairs m pos s = .ok out ∧ out.length = s.length / 2) ∨
      ∃ j, decodePairs m pos s = .error (.invalidCharacter j) ∧ pos ≤ j ∧ j < pos + s.length := by
  induction pos, s using decodePairs.induct (m := m) with
  | case1 pos h l rest hh => exact .inr ⟨pos, by simp [decodePairs, hh], le_refl _, by simp⟩
  | case2 pos h l rest hn hh hl => exact .inr ⟨pos + 1, by simp [decodePairs, hh, hl], by omega, by simp⟩
  | case3 pos h l rest hn hh ln hl e hr ih =>
    rcases ih with ⟨out, ho, _⟩ | ⟨j, hj, h1, h2⟩
    · exact absurd (hr.symm.trans ho) (by simp)
    · exact .inr ⟨j, by simp [decodePairs, hh, hl, hj], by omega, by simp only [List.length_cons]; omega⟩
  | case4 pos h l rest hn hh ln hl out hr ih =>
    rcases ih with ⟨out', ho, hlen⟩ | ⟨j, hj, _⟩
    · refine .inl ⟨pack hn ln :: out', by simp [decodePairs, hh, hl, ho], ?_⟩
      simp only [List.length_cons, hlen]; omega
    · exact absurd (hr.symm.trans hj) (by simp)
  | case5 pos b => exact .inl ⟨[], rfl, by simp⟩
  | case6 pos => exact .inl ⟨[], rfl, by simp⟩

/-- An odd-length sequence is an error before any character is looked up (R103). -/
theorem decodeSeq_odd {m : Mode} {s : List Byte} (h : s.length % 2 = 1) : decodeSeq m s = .error .oddLength := by
  simp [decodeSeq, h]

/-- An even-length sequence goes through the loop (R102). -/
theorem decodeSeq_even {m : Mode} {s : List Byte} (h : s.length % 2 = 0) : decodeSeq m s = decodePairs m 0 s := by
  simp [decodeSeq, h]

/-- What DECODE can answer (R102). -/
theorem decodeSeq_cases (m : Mode) (s : List Byte) :
    (s.length % 2 = 1 ∧ decodeSeq m s = .error .oddLength) ∨
      (s.length % 2 = 0 ∧ ∃ out, decodeSeq m s = .ok out ∧ out.length = s.length / 2) ∨
        s.length % 2 = 0 ∧ ∃ j, decodeSeq m s = .error (.invalidCharacter j) ∧ j < s.length := by
  rcases Nat.mod_two_eq_zero_or_one s.length with h | h
  · rw [decodeSeq_even h]
    rcases decodePairs_cases m 0 s with ho | ⟨j, hj, _, hlt⟩
    · exact .inr (.inl ⟨h, ho⟩)
    · exact .inr (.inr ⟨h, j, hj, by omega⟩)
  · exact .inl ⟨h, decodeSeq_odd h⟩

end Sys2Proof.Machine
end

