-- ==== Sys2Proof/Laws/Memory.lean ====
section
/-! SUPPORT. The laws of buffers: read after write, the image of a byte sequence, and that every operation keeps
the canonical form. -/

namespace Sys2Proof.Machine

@[simp] theorem Memory.read_nil (a : Nat) : Memory.read [] a = none := rfl

theorem Memory.read_cons (k : Nat) (b : Byte) (m : Memory) (a : Nat) :
    Memory.read ((k, b) :: m) a = if k = a then some b else Memory.read m a := rfl

/-- An element reads as written, every other element reads as before (R44). -/
theorem Memory.read_write (m : Memory) (a : Nat) (v : Byte) (j : Nat) :
    Memory.read (Memory.write m a v) j = if j = a then some v else Memory.read m j := by
  induction m with
  | nil => simp [Memory.write, Memory.read_cons, eq_comm]
  | cons kb m ih =>
    obtain ⟨k, b⟩ := kb
    simp only [Memory.write]
    split_ifs <;> simp only [Memory.read_cons, ih] <;> split_ifs <;> first | rfl | (exfalso; omega)

/-- The indices defined after a write. -/
theorem Memory.mem_keys_write (m : Memory) (a : Nat) (v : Byte) (j : Nat) :
    j ∈ (Memory.write m a v).map Prod.fst ↔ j = a ∨ j ∈ m.map Prod.fst := by
  induction m with
  | nil => simp [Memory.write]
  | cons kb m ih =>
    obtain ⟨k, b⟩ := kb
    simp only [Memory.write]
    split_ifs with h1 h2
    · simp only [List.map_cons, List.mem_cons]
    · subst h2; simp only [List.map_cons, List.mem_cons, or_self_left]
    · simp only [List.map_cons, List.mem_cons, ih]; tauto

/-- A write keeps the canonical form. -/
theorem Memory.wf_write {m : Memory} (h : Memory.wf m) (a : Nat) (v : Byte) : Memory.wf (Memory.write m a v) := by
  induction m with
  | nil => simp [Memory.wf, Memory.write]
  | cons kb m ih =>
    obtain ⟨k, b⟩ := kb
    simp only [Memory.wf, List.map_cons, List.pairwise_cons] at h ih ⊢
    simp only [Memory.write]
    split_ifs with h1 h2
    · simp only [List.map_cons, List.pairwise_cons]
      refine ⟨?_, h.1, h.2⟩
      intro x hx
      rcases List.mem_cons.1 hx with rfl | hx
      · exact h1
      · exact h1.trans (h.1 x hx)
    · subst h2; exact List.pairwise_cons.2 h
    · simp only [List.map_cons, List.pairwise_cons]
      refine ⟨?_, ih h.2⟩
      intro x hx
      rcases (Memory.mem_keys_write m a v x).1 hx with rfl | hx
      · omega
      · exact h.1 x hx

/-- A write in range keeps the buffer in range. -/
theorem Memory.below_write {cap : Nat} {m : Memory} (h : Memory.below cap m) {a : Nat} (ha : a < cap) (v : Byte) :
    Memory.below cap (Memory.write m a v) := by
  intro k hk
  rcases (Memory.mem_keys_write m a v k).1 hk with rfl | hk
  · exact ha
  · exact h k hk

theorem Memory.keys_imageFrom (bs : List Byte) (k : Nat) :
    (Memory.imageFrom k bs).map Prod.fst = List.range' k bs.length := by
  induction bs generalizing k with
  | nil => rfl
  | cons b bs ih => simp [Memory.imageFrom, ih, List.range'_succ]

/-- The defined indices of an image: exactly those below its length. -/
@[simp] theorem Memory.keys_image (bs : List Byte) : (Memory.image bs).map Prod.fst = List.range bs.length := by
  rw [Memory.image, Memory.keys_imageFrom, List.range_eq_range']

theorem Memory.read_imageFrom (bs : List Byte) (k j : Nat) :
    Memory.read (Memory.imageFrom k bs) j = if k ≤ j then bs[j - k]? else none := by
  induction bs generalizing k with
  | nil => simp [Memory.imageFrom]
  | cons b bs ih =>
    simp only [Memory.imageFrom, Memory.read_cons, ih]
    rcases Nat.lt_trichotomy k j with h | h | h
    · have h1 : j - k = (j - (k + 1)) + 1 := by omega
      rw [if_neg (by omega), if_pos (by omega), if_pos (by omega), h1, List.getElem?_cons_succ]
    · subst h; simp
    · rw [if_neg (by omega), if_neg (by omega), if_neg (by omega)]

/-- An image reads as its bytes, and as nothing beyond them (R90). -/
@[simp] theorem Memory.read_image (bs : List Byte) (j : Nat) : Memory.read (Memory.image bs) j = bs[j]? := by
  simp [Memory.image, Memory.read_imageFrom]

/-- An image is in canonical form. -/
theorem Memory.wf_image (bs : List Byte) : Memory.wf (Memory.image bs) := by
  rw [Memory.wf, Memory.keys_image]; exact List.pairwise_lt_range

/-- An element is defined exactly when its index is listed. -/
theorem Memory.read_isSome (m : Memory) (j : Nat) : (Memory.read m j).isSome ↔ j ∈ m.map Prod.fst := by
  induction m with
  | nil => simp
  | cons kb m ih =>
    obtain ⟨k, b⟩ := kb
    rw [Memory.read_cons, List.map_cons, List.mem_cons, ← ih]
    by_cases h : k = j
    · simp [h]
    · simp [h, Ne.symm h]

end Sys2Proof.Machine
end

