-- ==== Sys2Proof/Laws/PerInstr.lean ====
section
/-! SUPPORT. Statements made once for each command, one lemma for each constructor of `Instr`. -/

namespace Sys2Proof.Laws.RoundTrip

/-- A command's word has RSV = 0, and the decoder reads the command back from it (R67, R68). -/
def Statement (i : Instr) : Prop := fieldRsv (encode i) = 0#28 ∧ decode (encode i) = .ok i

theorem encL : Statement .encL := by unfold Statement; decide
theorem encU : Statement .encU := by unfold Statement; decide
theorem encfL : Statement .encfL := by unfold Statement; decide
theorem encfU : Statement .encfU := by unfold Statement; decide
theorem dec : Statement .dec := by unfold Statement; decide
theorem decSL : Statement .decSL := by unfold Statement; decide
theorem decSU : Statement .decSU := by unfold Statement; decide
theorem decf : Statement .decf := by unfold Statement; decide
theorem decfSL : Statement .decfSL := by unfold Statement; decide
theorem decfSU : Statement .decfSU := by unfold Statement; decide

end Sys2Proof.Laws.RoundTrip
end

