-- ==== Sys2Proof/Laws/State.lean ====
section
/-! SUPPORT. For each update of the state, what it makes of each field. -/

namespace Sys2Proof

/-- The constraints of R6, which the parameters of every built instance and of every state meet (R8). -/
theorem Params.legal_iff (p : Params) :
    p.legal = true ↔ p.inCap ≤ 2 ^ 31 - 1 ∧ (∀ n, p.encFixedN = some n → n ≤ p.inCap) ∧
      ∀ n, p.decFixedN = some n → n ≤ p.inCap ∧ n % 2 = 0 := by
  simp only [Params.legal, Params.capLegal, Params.encFixedLegal, Params.decFixedLegal, Bool.and_eq_true, and_assoc]
  cases p.encFixedN <;> cases p.decFixedN <;> simp

/-- What building an instance can do: a legal one is built with its own parameters (R8). -/
theorem Params.build_eq_some (p : Params) (q : LegalParams) : p.build = some q ↔ q.toParams = p := by
  unfold Params.build
  split
  · rw [Option.some.injEq]
    exact ⟨fun h => h ▸ rfl, fun h => by subst h; rfl⟩
  · rename_i h
    exact ⟨fun e => absurd e (by simp), fun e => absurd (e ▸ q.isLegal) h⟩

end Sys2Proof

namespace Sys2Proof.Machine

variable (s : State)

/-! ### `State.reply` gives the host a value (R41) -/

@[simp] theorem State.reply_cmd (v : Datum) : (s.reply v).cmd = s.cmd := rfl
@[simp] theorem State.reply_len (v : Datum) : (s.reply v).len = s.len := rfl
@[simp] theorem State.reply_result (v : Datum) : (s.reply v).result = s.result := rfl
@[simp] theorem State.reply_busy (v : Datum) : (s.reply v).busy = s.busy := rfl
@[simp] theorem State.reply_errPos (v : Datum) : (s.reply v).errPos = s.errPos := rfl
@[simp] theorem State.reply_outLen (v : Datum) : (s.reply v).outLen = s.outLen := rfl
@[simp] theorem State.reply_inBuf (v : Datum) : (s.reply v).inBuf = s.inBuf := rfl
@[simp] theorem State.reply_outBuf (v : Datum) : (s.reply v).outBuf = s.outBuf := rfl
@[simp] theorem State.reply_pending (v : Datum) : (s.reply v).pending = s.pending := rfl
@[simp] theorem State.reply_mark (v : Datum) : (s.reply v).mark = s.mark := rfl
@[simp] theorem State.reply_inst (v : Datum) : (s.reply v).inst = s.inst := rfl
@[simp] theorem State.reply_script (v : Datum) : (s.reply v).script = s.script := rfl
@[simp] theorem State.reply_replies (v : Datum) : (s.reply v).replies = v :: s.replies := rfl
@[simp] theorem State.reply_draws (v : Datum) : (s.reply v).draws = s.draws := rfl

/-! ### `State.setLen` writes LEN (R42) -/

@[simp] theorem State.setLen_cmd (v : Word) : (s.setLen v).cmd = s.cmd := rfl
@[simp] theorem State.setLen_len (v : Word) : (s.setLen v).len = v := rfl
@[simp] theorem State.setLen_result (v : Word) : (s.setLen v).result = s.result := rfl
@[simp] theorem State.setLen_busy (v : Word) : (s.setLen v).busy = s.busy := rfl
@[simp] theorem State.setLen_errPos (v : Word) : (s.setLen v).errPos = s.errPos := rfl
@[simp] theorem State.setLen_outLen (v : Word) : (s.setLen v).outLen = s.outLen := rfl
@[simp] theorem State.setLen_inBuf (v : Word) : (s.setLen v).inBuf = s.inBuf := rfl
@[simp] theorem State.setLen_outBuf (v : Word) : (s.setLen v).outBuf = s.outBuf := rfl
@[simp] theorem State.setLen_pending (v : Word) : (s.setLen v).pending = s.pending := rfl
@[simp] theorem State.setLen_mark (v : Word) : (s.setLen v).mark = s.mark := rfl
@[simp] theorem State.setLen_inst (v : Word) : (s.setLen v).inst = s.inst := rfl
@[simp] theorem State.setLen_script (v : Word) : (s.setLen v).script = s.script := rfl
@[simp] theorem State.setLen_replies (v : Word) : (s.setLen v).replies = s.replies := rfl
@[simp] theorem State.setLen_draws (v : Word) : (s.setLen v).draws = s.draws := rfl

/-! ### `State.setIn` writes one element of IN (R44) -/

@[simp] theorem State.setIn_cmd (i : Nat) (v : Byte) : (s.setIn i v).cmd = s.cmd := rfl
@[simp] theorem State.setIn_len (i : Nat) (v : Byte) : (s.setIn i v).len = s.len := rfl
@[simp] theorem State.setIn_result (i : Nat) (v : Byte) : (s.setIn i v).result = s.result := rfl
@[simp] theorem State.setIn_busy (i : Nat) (v : Byte) : (s.setIn i v).busy = s.busy := rfl
@[simp] theorem State.setIn_errPos (i : Nat) (v : Byte) : (s.setIn i v).errPos = s.errPos := rfl
@[simp] theorem State.setIn_outLen (i : Nat) (v : Byte) : (s.setIn i v).outLen = s.outLen := rfl
@[simp] theorem State.setIn_inBuf (i : Nat) (v : Byte) : (s.setIn i v).inBuf = Memory.write s.inBuf i v := rfl
@[simp] theorem State.setIn_outBuf (i : Nat) (v : Byte) : (s.setIn i v).outBuf = s.outBuf := rfl
@[simp] theorem State.setIn_pending (i : Nat) (v : Byte) : (s.setIn i v).pending = s.pending := rfl
@[simp] theorem State.setIn_mark (i : Nat) (v : Byte) : (s.setIn i v).mark = s.mark := rfl
@[simp] theorem State.setIn_inst (i : Nat) (v : Byte) : (s.setIn i v).inst = s.inst := rfl
@[simp] theorem State.setIn_script (i : Nat) (v : Byte) : (s.setIn i v).script = s.script := rfl
@[simp] theorem State.setIn_replies (i : Nat) (v : Byte) : (s.setIn i v).replies = s.replies := rfl
@[simp] theorem State.setIn_draws (i : Nat) (v : Byte) : (s.setIn i v).draws = s.draws := rfl

/-! ### `State.markRefusal` sets the mark (R123) -/

@[simp] theorem State.markRefusal_cmd (r : Refusal) : (s.markRefusal r).cmd = s.cmd := rfl
@[simp] theorem State.markRefusal_len (r : Refusal) : (s.markRefusal r).len = s.len := rfl
@[simp] theorem State.markRefusal_result (r : Refusal) : (s.markRefusal r).result = s.result := rfl
@[simp] theorem State.markRefusal_busy (r : Refusal) : (s.markRefusal r).busy = s.busy := rfl
@[simp] theorem State.markRefusal_errPos (r : Refusal) : (s.markRefusal r).errPos = s.errPos := rfl
@[simp] theorem State.markRefusal_outLen (r : Refusal) : (s.markRefusal r).outLen = s.outLen := rfl
@[simp] theorem State.markRefusal_inBuf (r : Refusal) : (s.markRefusal r).inBuf = s.inBuf := rfl
@[simp] theorem State.markRefusal_outBuf (r : Refusal) : (s.markRefusal r).outBuf = s.outBuf := rfl
@[simp] theorem State.markRefusal_pending (r : Refusal) : (s.markRefusal r).pending = s.pending := rfl
@[simp] theorem State.markRefusal_mark (r : Refusal) : (s.markRefusal r).mark = s.mark.or (some r) := rfl
@[simp] theorem State.markRefusal_inst (r : Refusal) : (s.markRefusal r).inst = s.inst := rfl
@[simp] theorem State.markRefusal_script (r : Refusal) : (s.markRefusal r).script = s.script := rfl
@[simp] theorem State.markRefusal_replies (r : Refusal) : (s.markRefusal r).replies = s.replies := rfl
@[simp] theorem State.markRefusal_draws (r : Refusal) : (s.markRefusal r).draws = s.draws := rfl

/-! ### `State.assertReset` resets the block (R130) -/

@[simp] theorem State.assertReset_cmd : s.assertReset.cmd = 0x00000000#32 := rfl
@[simp] theorem State.assertReset_len : s.assertReset.len = 0x00000000#32 := rfl
@[simp] theorem State.assertReset_result : s.assertReset.result = .none := rfl
@[simp] theorem State.assertReset_busy : s.assertReset.busy = false := rfl
@[simp] theorem State.assertReset_errPos : s.assertReset.errPos = 0x00000000#32 := rfl
@[simp] theorem State.assertReset_outLen : s.assertReset.outLen = 0x00000000#32 := rfl
@[simp] theorem State.assertReset_inBuf : s.assertReset.inBuf = [] := rfl
@[simp] theorem State.assertReset_outBuf : s.assertReset.outBuf = [] := rfl
@[simp] theorem State.assertReset_pending : s.assertReset.pending = none := rfl
@[simp] theorem State.assertReset_mark : s.assertReset.mark = s.mark := rfl
@[simp] theorem State.assertReset_inst : s.assertReset.inst = s.inst := rfl
@[simp] theorem State.assertReset_script : s.assertReset.script = s.script := rfl
@[simp] theorem State.assertReset_replies : s.assertReset.replies = s.replies := rfl
@[simp] theorem State.assertReset_draws : s.assertReset.draws = s.draws := rfl

/-! ### `State.issue` starts a command (R89) -/

@[simp] theorem State.issue_cmd (w : Word) (j : Job) (n : Nat) : (s.issue w j n).cmd = w := rfl
@[simp] theorem State.issue_len (w : Word) (j : Job) (n : Nat) : (s.issue w j n).len = s.len := rfl
@[simp] theorem State.issue_result (w : Word) (j : Job) (n : Nat) : (s.issue w j n).result = .none := rfl
@[simp] theorem State.issue_busy (w : Word) (j : Job) (n : Nat) : (s.issue w j n).busy = true := rfl
@[simp] theorem State.issue_errPos (w : Word) (j : Job) (n : Nat) : (s.issue w j n).errPos = 0x00000000#32 := rfl
@[simp] theorem State.issue_outLen (w : Word) (j : Job) (n : Nat) : (s.issue w j n).outLen = 0x00000000#32 := rfl
@[simp] theorem State.issue_inBuf (w : Word) (j : Job) (n : Nat) : (s.issue w j n).inBuf = s.inBuf := rfl
@[simp] theorem State.issue_outBuf (w : Word) (j : Job) (n : Nat) : (s.issue w j n).outBuf = [] := rfl
@[simp] theorem State.issue_pending (w : Word) (j : Job) (n : Nat) : (s.issue w j n).pending = some ⟨j, n⟩ := rfl
@[simp] theorem State.issue_mark (w : Word) (j : Job) (n : Nat) : (s.issue w j n).mark = s.mark := rfl
@[simp] theorem State.issue_inst (w : Word) (j : Job) (n : Nat) : (s.issue w j n).inst = s.inst := rfl
@[simp] theorem State.issue_script (w : Word) (j : Job) (n : Nat) : (s.issue w j n).script = s.script := rfl
@[simp] theorem State.issue_replies (w : Word) (j : Job) (n : Nat) : (s.issue w j n).replies = s.replies := rfl
@[simp] theorem State.issue_draws (w : Word) (j : Job) (n : Nat) : (s.issue w j n).draws = s.draws := rfl

/-! ### `State.finish` reports a result (R90) -/

@[simp] theorem State.finish_cmd (code : ResultCode) (pos : Word) (out : List Byte) : (s.finish code pos out).cmd = s.cmd := rfl
@[simp] theorem State.finish_len (code : ResultCode) (pos : Word) (out : List Byte) : (s.finish code pos out).len = s.len := rfl
@[simp] theorem State.finish_result (code : ResultCode) (pos : Word) (out : List Byte) : (s.finish code pos out).result = code := rfl
@[simp] theorem State.finish_busy (code : ResultCode) (pos : Word) (out : List Byte) : (s.finish code pos out).busy = false := rfl
@[simp] theorem State.finish_errPos (code : ResultCode) (pos : Word) (out : List Byte) : (s.finish code pos out).errPos = pos := rfl
@[simp] theorem State.finish_outLen (code : ResultCode) (pos : Word) (out : List Byte) : (s.finish code pos out).outLen = BitVec.ofNat 32 out.length := rfl
@[simp] theorem State.finish_inBuf (code : ResultCode) (pos : Word) (out : List Byte) : (s.finish code pos out).inBuf = s.inBuf := rfl
@[simp] theorem State.finish_outBuf (code : ResultCode) (pos : Word) (out : List Byte) : (s.finish code pos out).outBuf = Memory.image out := rfl
@[simp] theorem State.finish_pending (code : ResultCode) (pos : Word) (out : List Byte) : (s.finish code pos out).pending = none := rfl
@[simp] theorem State.finish_mark (code : ResultCode) (pos : Word) (out : List Byte) : (s.finish code pos out).mark = s.mark := rfl
@[simp] theorem State.finish_inst (code : ResultCode) (pos : Word) (out : List Byte) : (s.finish code pos out).inst = s.inst := rfl
@[simp] theorem State.finish_script (code : ResultCode) (pos : Word) (out : List Byte) : (s.finish code pos out).script = s.script := rfl
@[simp] theorem State.finish_replies (code : ResultCode) (pos : Word) (out : List Byte) : (s.finish code pos out).replies = s.replies := rfl
@[simp] theorem State.finish_draws (code : ResultCode) (pos : Word) (out : List Byte) : (s.finish code pos out).draws = s.draws := rfl

/-! ### `State.replyElement` gives the host an element or a draw (R31) -/

@[simp] theorem State.replyElement_cmd (e : Option Byte) : (s.replyElement e).cmd = s.cmd := by cases e <;> rfl
@[simp] theorem State.replyElement_len (e : Option Byte) : (s.replyElement e).len = s.len := by cases e <;> rfl
@[simp] theorem State.replyElement_result (e : Option Byte) : (s.replyElement e).result = s.result := by cases e <;> rfl
@[simp] theorem State.replyElement_busy (e : Option Byte) : (s.replyElement e).busy = s.busy := by cases e <;> rfl
@[simp] theorem State.replyElement_errPos (e : Option Byte) : (s.replyElement e).errPos = s.errPos := by cases e <;> rfl
@[simp] theorem State.replyElement_outLen (e : Option Byte) : (s.replyElement e).outLen = s.outLen := by cases e <;> rfl
@[simp] theorem State.replyElement_inBuf (e : Option Byte) : (s.replyElement e).inBuf = s.inBuf := by cases e <;> rfl
@[simp] theorem State.replyElement_outBuf (e : Option Byte) : (s.replyElement e).outBuf = s.outBuf := by cases e <;> rfl
@[simp] theorem State.replyElement_pending (e : Option Byte) : (s.replyElement e).pending = s.pending := by cases e <;> rfl
@[simp] theorem State.replyElement_mark (e : Option Byte) : (s.replyElement e).mark = s.mark := by cases e <;> rfl
@[simp] theorem State.replyElement_inst (e : Option Byte) : (s.replyElement e).inst = s.inst := by cases e <;> rfl
@[simp] theorem State.replyElement_script (e : Option Byte) : (s.replyElement e).script = s.script := by cases e <;> rfl
@[simp] theorem State.replyElement_some (b : Byte) : s.replyElement (some b) = s.reply (.byte b) := rfl

/-! ### `State.report` ends a command (R90) -/

@[simp] theorem State.report_cmd (r : Except DecodeError (List Byte)) : (s.report r).cmd = s.cmd := by
  rcases r with (_ | _) | _ <;> rfl
@[simp] theorem State.report_len (r : Except DecodeError (List Byte)) : (s.report r).len = s.len := by
  rcases r with (_ | _) | _ <;> rfl
@[simp] theorem State.report_busy (r : Except DecodeError (List Byte)) : (s.report r).busy = false := by
  rcases r with (_ | _) | _ <;> rfl
@[simp] theorem State.report_inBuf (r : Except DecodeError (List Byte)) : (s.report r).inBuf = s.inBuf := by
  rcases r with (_ | _) | _ <;> rfl
@[simp] theorem State.report_pending (r : Except DecodeError (List Byte)) : (s.report r).pending = none := by
  rcases r with (_ | _) | _ <;> rfl
@[simp] theorem State.report_mark (r : Except DecodeError (List Byte)) : (s.report r).mark = s.mark := by
  rcases r with (_ | _) | _ <;> rfl
@[simp] theorem State.report_inst (r : Except DecodeError (List Byte)) : (s.report r).inst = s.inst := by
  rcases r with (_ | _) | _ <;> rfl
@[simp] theorem State.report_script (r : Except DecodeError (List Byte)) : (s.report r).script = s.script := by
  rcases r with (_ | _) | _ <;> rfl
@[simp] theorem State.report_replies (r : Except DecodeError (List Byte)) : (s.report r).replies = s.replies := by
  rcases r with (_ | _) | _ <;> rfl
@[simp] theorem State.report_draws (r : Except DecodeError (List Byte)) : (s.report r).draws = s.draws := by
  rcases r with (_ | _) | _ <;> rfl

end Sys2Proof.Machine
end

