-- ==== Sys2Proof/Laws/Step.lean ====
section
/-! SUPPORT. What each shared operation, each agent's turn and the step can do, said once. -/

namespace Sys2Proof.Machine

/-- START: it answers next in one case only, and then the command is issued (R88, R89). -/
theorem start_next {w : Word} {j : Job} {n? : Option Nat} {s t : State} :
    start w j n? s = .next t ↔
      s.busy = false ∧ ∃ n, n? = some n ∧ n ≤ s.inst.inCap ∧ t = s.issue w j n := by
  unfold start
  cases hb : s.busy
  · cases n? with
    | none => simp
    | some n =>
      by_cases h : s.inst.inCap < n
      · simp [h]
      · simp [h, Nat.not_lt.1 h, eq_comm]
  · simp

/-- START never faults. -/
theorem start_ne_fault {w : Word} {j : Job} {n? : Option Nat} {s : State} {f : Fault} :
    start w j n? s ≠ .fault f := by
  unfold start
  cases s.busy
  · cases n? with
    | none => simp
    | some n => by_cases h : s.inst.inCap < n <;> simp [h]
  · simp

/-- Every command's meaning is START of its row of the opcode map (R68, R88). -/
theorem exec_eq_start (i : Instr) (s : State) : exec i s = start (encode i) i.job (i.length s) s := by
  cases i <;> rfl

/-- What a command's START does when it is not refused (R89). -/
theorem exec_next {i : Instr} {s t : State} :
    exec i s = .next t ↔
      s.busy = false ∧ ∃ n, i.length s = some n ∧ n ≤ s.inst.inCap ∧ t = s.issue (encode i) i.job n := by
  rw [exec_eq_start]; exact start_next

theorem exec_ne_fault {i : Instr} {s : State} {f : Fault} : exec i s ≠ .fault f := by
  rw [exec_eq_start]; exact start_ne_fault

/-- Each command's word decodes to it (R68). -/
@[simp] theorem decode_encode (i : Instr) : decode (encode i) = .ok i := by cases i <;> decide

/-- The effects a host transaction can have (R41 to R45). -/
theorem serve_next {a : Access} {s t : State} (h : serve a s = .next t) :
    (∃ off r, a = .read .reg off .w32 ∧ Reg.ofOffset off = some r ∧ t = s.reply (.word (s.readReg r))) ∨
    (∃ i, a = .read .inBuf i .w8 ∧ i < s.inst.inCap ∧ t = s.replyElement (Memory.read s.inBuf i)) ∨
    (∃ i, a = .read .outBuf i .w8 ∧ i < 2 * s.inst.inCap ∧ t = s.replyElement (Memory.read s.outBuf i)) ∨
    (∃ off v, a = .write .reg off (.word v) ∧ Reg.ofOffset off = some .len ∧ t = s.setLen v) ∨
    (∃ i v, a = .write .inBuf i (.byte v) ∧ i < s.inst.inCap ∧ s.busy = false ∧ t = s.setIn i v) ∨
    ∃ off v i, a = .write .reg off (.word v) ∧ Reg.ofOffset off = some .cmd ∧ decode v = .ok i ∧
      exec i s = .next t := by
  rcases a with ⟨sp, off, w⟩ | ⟨sp, off, d⟩
  · cases sp <;> cases w <;> simp only [serve, readRegister, readIn, readOut, reduceCtorEq] at h
    · cases hr : Reg.ofOffset off with
      | none => simp [hr] at h
      | some r => exact .inl ⟨off, r, rfl, hr, by simpa [hr] using h.symm⟩
    · split at h
      · rename_i hi; exact .inr (.inl ⟨off, rfl, hi, by simpa using h.symm⟩)
      · simp at h
    · split at h
      · rename_i hi; exact .inr (.inr (.inl ⟨off, rfl, hi, by simpa using h.symm⟩))
      · simp at h
  · cases sp <;> cases d <;> simp only [serve, writeRegister, writeIn, reduceCtorEq] at h
    · rename_i v
      cases hr : Reg.ofOffset off with
      | none => simp [hr] at h
      | some r =>
        cases r <;> simp only [hr, reduceCtorEq] at h
        · unfold writeCmd at h
          cases hd : decode v with
          | ok i => exact .inr (.inr (.inr (.inr (.inr ⟨off, v, i, rfl, hr, hd, by simpa [hd] using h⟩))))
          | error e => simp only [hd] at h; split at h <;> simp at h
        · exact .inr (.inr (.inr (.inl ⟨off, v, rfl, hr, by simpa using h.symm⟩)))
    · rename_i v
      split at h
      · rename_i hi
        cases hb : s.busy
        · exact .inr (.inr (.inr (.inr (.inl ⟨off, v, rfl, hi, rfl, by simpa [hb] using h.symm⟩))))
        · simp [hb] at h
      · simp at h

/-- No host transaction faults (R115). -/
theorem serve_ne_fault {a : Access} {s : State} {f : Fault} : serve a s ≠ .fault f := by
  intro h
  rcases a with ⟨sp, off, w⟩ | ⟨sp, off, d⟩
  · cases sp <;> cases w <;> simp only [serve, readRegister, readIn, readOut, reduceCtorEq] at h <;> split at h <;>
      simp at h
  · cases sp <;> cases d <;> simp only [serve, writeRegister, writeIn, reduceCtorEq] at h
    · split at h <;> try simp at h
      unfold writeCmd at h
      split at h
      · exact exec_ne_fault h
      · split at h <;> simp at h
    · split at h
      · split at h <;> simp at h
      · simp at h

/-- A host transaction's turn always answers next: served, or refused and marked (R40, R122). -/
theorem hostTurn_cases (a : Access) (s : State) :
    (∃ t, serve a s = .next t ∧ hostTurn a s = .next t) ∨
      ∃ r, serve a s = .refused r ∧ hostTurn a s = .next (s.markRefusal r) := by
  unfold hostTurn
  cases h : serve a s with
  | next t => exact .inl ⟨t, rfl, rfl⟩
  | fault f => exact absurd h serve_ne_fault
  | refused r => exact .inr ⟨r, rfl, rfl⟩

/-- Completion of a pending command: the three cases of R90. -/
theorem completePending_cases (p : Pending) (s : State) :
    (∃ out, p.job.compute (s.input p.n).1 = .ok out ∧
        s.completePending p = { s with draws := (s.input p.n).2 }.finish .ok 0x00000000#32 out) ∨
    (p.job.compute (s.input p.n).1 = .error .oddLength ∧
        s.completePending p = { s with draws := (s.input p.n).2 }.finish .oddLength 0x00000000#32 []) ∨
    ∃ j, p.job.compute (s.input p.n).1 = .error (.invalidCharacter j) ∧
        s.completePending p =
          { s with draws := (s.input p.n).2 }.finish .invalidCharacter (BitVec.ofNat 32 j) [] := by
  unfold State.completePending
  rcases h : p.job.compute (s.input p.n).1 with (_ | j) | out
  · exact .inr (.inl ⟨rfl, rfl⟩)
  · exact .inr (.inr ⟨j, rfl, rfl⟩)
  · exact .inl ⟨out, rfl, rfl⟩

/-- The engine's turn (R87, R90, R129). -/
theorem engineTurn_next {s t : State} (h : engineTurn s = .next t) :
    (s.busy = false ∧ t = s) ∨ (s.busy = true ∧ ∃ p, s.pending = some p ∧ t = s.completePending p) := by
  unfold engineTurn complete at h
  cases hb : s.busy
  · exact .inl ⟨rfl, by simpa [hb] using h.symm⟩
  · cases hp : s.pending with
    | none => simp [hb, hp] at h
    | some p => exact .inr ⟨rfl, p, rfl, by simpa [hb, hp] using h.symm⟩

/-- What a step can do (R54, R87): the engine's turn, RST, a served access or a refused one. -/
theorem step_next {s t : State} (h : step s = .next t) :
    (s.script = [] ∧ engineTurn s = .next t) ∨
    (∃ rest, s.script = .engine :: rest ∧ engineTurn { s with script := rest } = .next t) ∨
    (∃ rest, s.script = .rst :: rest ∧ t = { s with script := rest }.assertReset) ∨
    (∃ a rest, s.script = .access a :: rest ∧ serve a { s with script := rest } = .next t) ∨
    ∃ a rest r, s.script = .access a :: rest ∧ serve a { s with script := rest } = .refused r ∧
      t = { s with script := rest }.markRefusal r := by
  unfold step at h
  cases hs : s.script with
  | nil => exact .inl ⟨rfl, by simpa [hs] using h⟩
  | cons e rest =>
    cases e with
    | engine => exact .inr (.inl ⟨rest, rfl, by simpa [hs] using h⟩)
    | rst => exact .inr (.inr (.inl ⟨rest, rfl, by simpa [hs] using h.symm⟩))
    | access a =>
      simp only [hs] at h
      rcases hostTurn_cases a { s with script := rest } with ⟨t', h1, h2⟩ | ⟨r, h1, h2⟩
      · rw [h2, Host.Outcome.next.injEq] at h
        subst h
        exact .inr (.inr (.inr (.inl ⟨a, rest, rfl, h1⟩)))
      · rw [h2, Host.Outcome.next.injEq] at h
        exact .inr (.inr (.inr (.inr ⟨a, rest, r, rfl, h1, h.symm⟩)))

/-- No step refuses: a refused access is marked instead (R122, R123). -/
theorem step_ne_refused {s : State} {r : Refusal} : step s ≠ .refused r := by
  intro h
  have eng : ∀ s' : State, engineTurn s' ≠ .refused r := by
    intro s'
    unfold engineTurn complete
    cases s'.busy <;> cases s'.pending <;> simp
  unfold step at h
  split at h
  · exact eng _ h
  · exact eng _ h
  · simp at h
  · rename_i a rest _
    rcases hostTurn_cases a { s with script := rest } with ⟨t, _, h2⟩ | ⟨r', _, h2⟩ <;> rw [h2] at h <;> simp at h

/-- A run whose first step answers next goes on from there. -/
theorem run_of_step {k : Nat} {s t : State} (h : step s = .next t) : core.run (k + 1) s = core.run k t := by
  have key : ∀ (M : Host.Core) (a b : M.State), M.step a = .next b → M.run (k + 1) a = M.run k b := by
    intro M a b hab
    simp only [Host.Core.run, hab]
  exact key core s t h

/-- A host access that is served in every script position gives its result (R40). -/
theorem hostGives_of {a : Access} {s t : State}
    (h : ∀ rest, serve a { s with script := rest } = .next { t with script := rest }) : HostGives a s t := by
  intro rest
  change hostTurn a { s with script := rest } = _
  unfold hostTurn
  rw [h rest]

/-- A host access that is refused in every script position sets the mark (R40, R122). -/
theorem hostRefused_of {a : Access} {s : State} {r : Refusal}
    (h : ∀ rest, serve a { s with script := rest } = .refused r) : HostRefused a s r := by
  intro rest
  change hostTurn a { s with script := rest } = _
  unfold hostTurn
  rw [h rest]
  rfl

/-- The engine's turn from a busy state completes the pending command (R90). -/
theorem engineGives_of {s : State} {p : Pending} (hb : s.busy = true) (hp : s.pending = some p) :
    EngineGives s (s.completePending p) := by
  have key : ∀ rest, engineTurn { s with script := rest } = .next { s.completePending p with script := rest } := by
    intro rest
    simp only [engineTurn, complete, hb, hp, if_true]
    unfold State.completePending State.input
    congr 1
    generalize p.job.compute (inputFrom s.inBuf 0 s.draws p.n).1 = r
    rcases r with (_ | _) | _ <;> rfl
  exact ⟨fun rest => key rest, key []⟩

/-- The length of the input a command reads (R71). -/
@[simp] theorem inputFrom_length (m : Memory) (i d n : Nat) : (inputFrom m i d n).1.length = n := by
  induction n generalizing i d with
  | zero => rfl
  | succ n ih =>
    unfold inputFrom
    cases Memory.read m i <;> simp [ih]

@[simp] theorem input_length (s : State) (n : Nat) : (s.input n).1.length = n := inputFrom_length ..

/-- Defined elements are read as they are, with no draw (R31, R90). -/
theorem inputFrom_defined (m : Memory) (d : Nat) (bytes : List Byte) (i : Nat)
    (h : ∀ k (hk : k < bytes.length), Memory.read m (i + k) = some bytes[k]) :
    inputFrom m i d bytes.length = (bytes, d) := by
  induction bytes generalizing i with
  | nil => rfl
  | cons b bs ih =>
    have h0 : Memory.read m i = some b := h 0 (by simp)
    have hr := ih (i + 1) (fun k hk => by
      have := h (k + 1) (by simpa using hk)
      rwa [Nat.add_assoc, Nat.add_comm 1 k])
    simp [inputFrom, h0, hr]

/-- A command whose input is defined reads exactly that input (R71). -/
theorem input_of_inputIs {s : State} {bytes : List Byte} (h : s.inputIs bytes) :
    s.input bytes.length = (bytes, s.draws) :=
  inputFrom_defined _ _ _ _ (fun k hk => by simpa using h k hk)

/-- A program with nothing left reads nothing (R143). -/
@[simp] theorem readsKnown_nil (known : List Nat) (s : State) : readsKnown [] known s = true := rfl

/-- One event of a program that reads only known elements: the step answers next, a START in it finds its input
known, and the rest reads only what is known then (R143). -/
theorem readsKnown_cons {e : Event} {rest : List Event} {known : List Nat} {s : State} :
    readsKnown (e :: rest) known s = true ↔
      ∃ t, step { s with script := e :: rest } = .next t ∧ s.startKnown t known = true ∧
        readsKnown rest (e.known s known) t = true := by
  rw [readsKnown]
  cases step { s with script := e :: rest } <;> simp

/-- Where a step is a START, the input it will read is known (R143). -/
theorem startKnown_iff {s t : State} {known : List Nat} :
    s.startKnown t known = true ↔ (s.busy = false → ∀ p, t.pending = some p → ∀ k, k < p.n → k ∈ known) := by
  unfold State.startKnown
  cases s.busy <;> cases t.pending <;> simp

end Sys2Proof.Machine
end

