-- ==== Sys2Proof/Tests/Slice0.lean ====
section
/-! SUPPORT. Tests. Expected results are the spec's: the vectors of 95_test_vectors.md, named in each comment, and
the worked examples of the rules. Then the smoke tests of the checks, and for each statement with hypotheses a
witness that meets them. -/

namespace Sys2Proof.Tests

open Sys2Proof Sys2Proof.Machine

/-! ### Helpers -/

/-- An instance with fixed lengths. -/
def inst (cap : Nat) (e d : Option Nat) : Params := ⟨cap, e, d, 0, 0, 0⟩

/-- An idle block on an instance of capacity 8, with LEN and IN given. -/
def idle (e d : Option Nat) (len : Word) (input : List Byte) (h : (inst 8 e d).legal = true := by decide) : State :=
  { State.resetOf ⟨inst 8 e d, h⟩ with len := len, inBuf := Memory.image input }

/-- The state after `k` steps, if no step stops. -/
def after (s : State) : Nat → Option State
  | 0 => some s
  | k + 1 =>
    match step s with
    | .next t => after t k
    | .fault _ => none
    | .refused _ => none

/-- What the host sees of a block, and the mark. -/
structure View where
  status : Word
  errPos : Word
  outLen : Word
  out : List Byte
  mark : Option Refusal
  deriving DecidableEq, Repr

/-- The view at the end of a script: STATUS, ERR_POS, OUT_LEN, the defined part of OUT, the mark. -/
def view (s : State) (script : List Event) : Option View :=
  (after { s with script := script } script.length).map
    fun t => ⟨t.statusWord, t.errPos, t.outLen, t.outBuf.map Prod.snd, t.mark⟩

/-- A command from START to completion. -/
def one (i : Instr) : List Event := [startCmd i, .engine]

/-- `OK [b0, ..., bk]`, `ODD` and `INV j` of the vectors' shorthand. -/
def ok (bs : List Byte) : Option View :=
  some ⟨1#32, 0#32, BitVec.ofNat 32 bs.length, bs, none⟩
def odd : Option View := some ⟨2#32, 0#32, 0#32, [], none⟩
def inv (j : Word) : Option View := some ⟨3#32, j, 0#32, [], none⟩

/-- A refused access: the block is idle as it was, the mark is set. -/
def refused (r : Refusal) : Option View :=
  some ⟨0#32, 0#32, 0#32, [], some r⟩

/-! ### The command word (R68): each bit from the fields FIXED, STRICT, CASE, OP -/

theorem test_decode_encL : decode 0b00000000000000000000000000000000#32 = .ok .encL := by decide
theorem test_decode_encU : decode 0b00000000000000000000000000000010#32 = .ok .encU := by decide
theorem test_decode_encfL : decode 0b00000000000000000000000000001000#32 = .ok .encfL := by decide
theorem test_decode_encfU : decode 0b00000000000000000000000000001010#32 = .ok .encfU := by decide
theorem test_decode_dec : decode 0b00000000000000000000000000000001#32 = .ok .dec := by decide
theorem test_decode_decSL : decode 0b00000000000000000000000000000101#32 = .ok .decSL := by decide
theorem test_decode_decSU : decode 0b00000000000000000000000000000111#32 = .ok .decSU := by decide
theorem test_decode_decf : decode 0b00000000000000000000000000001001#32 = .ok .decf := by decide
theorem test_decode_decfSL : decode 0b00000000000000000000000000001101#32 = .ok .decfSL := by decide
theorem test_decode_decfSU : decode 0b00000000000000000000000000001111#32 = .ok .decfSU := by decide

/-- R70's reserved words, each with its reason. -/
theorem test_decode_reserved :
    decode 0x3#32 = .error .decodeCase ∧ decode 0xB#32 = .error .decodeCase ∧
    decode 0x4#32 = .error .encodeStrict ∧ decode 0x6#32 = .error .encodeStrict ∧
    decode 0xC#32 = .error .encodeStrict ∧ decode 0xE#32 = .error .encodeStrict ∧
    decode 0x10#32 = .error .rsvBits ∧ decode 0x80000001#32 = .error .rsvBits := by decide

theorem test_decodeTableWord :
    decodeTableWord 32 0x0000000D = some .decfSL ∧ decodeTableWord 32 0x00000003 = none ∧
    decodeTableWord 40 0x100000000 = none := by decide

/-! ### The checks -/

theorem test_legal_instances :
    (inst (2 ^ 31 - 1) none none).legal = true ∧ (inst 4 (some 3) (some 4)).legal = true ∧
    (inst 0 (some 0) (some 0)).legal = true := by decide
theorem test_capacity_too_large : (inst (2 ^ 31) none none).legal = false := by decide
theorem test_enc_fixed_over_capacity : (inst 4 (some 5) none).legal = false := by decide
theorem test_dec_fixed_over_capacity : (inst 4 none (some 6)).legal = false := by decide
/-- DE52: DEC_FIXED_N = 3 is no legal instance; the model refuses to build it, so no state stands in it and no DECF runs
in it (R8). -/
theorem test_dec_fixed_odd :
    (inst 8 none (some 3)).build = none ∧ (inst 8 none (some 3)).build.map State.resetOf = none := by decide
theorem test_available :
    Instr.availableOn (inst 8 none (some 2)) .encfL = false ∧ Instr.availableOn (inst 8 (some 1) none) .decf = false ∧
    Instr.availableOn (inst 8 none none) .decSU = true := by decide
theorem test_shapes :
    Access.legalShape (inst 4 none none) (.read .reg 0x14 .w32) = false ∧
    Access.legalShape (inst 4 none none) (.read .reg 0x08 .w8) = false ∧
    Access.legalShape (inst 4 none none) (.read .inBuf 4 .w8) = false ∧
    Access.legalShape (inst 4 none none) (.read .outBuf 8 .w8) = false ∧
    Access.legalShape (inst 4 none none) (.write .reg 0x08 (.word 0#32)) = false ∧
    Access.legalShape (inst 4 none none) (.write .inBuf 0 (.word 0#32)) = false ∧
    Access.legalShape (inst 4 none none) (.write .outBuf 0 (.byte 0#8)) = false ∧
    Access.legalShape (inst 4 none none) (.read .outBuf 7 .w8) = true ∧
    Access.legalShape (inst 4 none none) (.read .reg 0x10 .w32) = true := by decide

/-! ### The first step after reset runs the placed command -/

theorem test_first_step :
    (match step (State.reset.withFetchWord 32 0x8) with
      | .next t => t.busy && t.cmd == 0x8#32 && t.pending == some ⟨.enc .l, 2⟩ && t.mark == none
      | .fault _ => false
      | .refused _ => false) = true := by decide

/-! ### Datapath -/

/-- EL3, EL6, EL12, EL14. -/
theorem test_encLUT :
    encLUT .l 0x0A#8 = (0x30#8, 0x61#8) ∧ encLUT .u 0x0A#8 = (0x30#8, 0x41#8) ∧
    encLUT .l 0x48#8 = (0x34#8, 0x38#8) ∧ encLUT .u 0xAB#8 = (0x41#8, 0x42#8) ∧
    encLUT .l 0xFF#8 = (0x66#8, 0x66#8) := by decide

/-- DL3 to DL14 and DL18, DL22: the borders of the three ranges, and codes with bit 7 set. -/
theorem test_decLUT :
    [0x2F#8, 0x30#8, 0x39#8, 0x3A#8, 0x40#8, 0x41#8, 0x46#8, 0x47#8, 0x60#8, 0x61#8, 0x66#8, 0x67#8, 0xB0#8, 0xE1#8].map
        (fun ch => (decLUT .i ch, decLUT .sl ch, decLUT .su ch)) =
      [(none, none, none), (some 0#4, some 0#4, some 0#4), (some 9#4, some 9#4, some 9#4), (none, none, none),
       (none, none, none), (some 10#4, none, some 10#4), (some 15#4, none, some 15#4), (none, none, none),
       (none, none, none), (some 10#4, some 10#4, none), (some 15#4, some 15#4, none), (none, none, none),
       (none, none, none), (none, none, none)] := by decide

/-- PK3, PK5, PK7. -/
theorem test_pack : pack 15#4 0#4 = 0xF0#8 ∧ pack 4#4 8#4 = 0x48#8 ∧ pack 10#4 11#4 = 0xAB#8 := by decide

/-! ### Commands -/

/-- S1. -/
theorem test_encL : view (idle none none 2#32 [0x48#8, 0x69#8]) (one .encL) = ok [0x34#8, 0x38#8, 0x36#8, 0x39#8] := by
  decide
/-- S9. -/
theorem test_encL_empty : view (idle none none 0#32 []) (one .encL) = ok [] := by decide
/-- EN7. -/
theorem test_encU : view (idle none none 3#32 [0x00#8, 0xFF#8, 0xA5#8]) (one .encU) =
    ok [0x30#8, 0x30#8, 0x46#8, 0x46#8, 0x41#8, 0x35#8] := by decide
/-- EN14: LEN is not read. -/
theorem test_encfL : view (idle (some 2) none 7#32 [0x48#8, 0x69#8]) (one .encfL) =
    ok [0x34#8, 0x38#8, 0x36#8, 0x39#8] := by decide
/-- EN13: an odd ENC_FIXED_N. -/
theorem test_encfU : view (idle (some 1) none 0#32 [0xAB#8]) (one .encfU) = ok [0x41#8, 0x42#8] := by decide
/-- S4. -/
theorem test_dec_invalid : view (idle none none 4#32 [0x34#8, 0x38#8, 0x67#8, 0x39#8]) (one .dec) = inv 2#32 := by decide
/-- DE20: the odd length wins over the invalid characters. -/
theorem test_dec_odd : view (idle none none 3#32 [0x7A#8, 0x7A#8, 0x7A#8]) (one .dec) = odd := by decide
/-- DE14. -/
theorem test_decSL : view (idle none none 4#32 [0x61#8, 0x62#8, 0x63#8, 0x64#8]) (one .decSL) = ok [0xAB#8, 0xCD#8] := by
  decide
/-- DE10. -/
theorem test_decSL_upper : view (idle none none 2#32 [0x66#8, 0x46#8]) (one .decSL) = inv 1#32 := by decide
/-- DE13. -/
theorem test_decSU_lower : view (idle none none 4#32 [0x41#8, 0x62#8, 0x43#8, 0x64#8]) (one .decSU) = inv 1#32 := by decide
/-- DE15. -/
theorem test_decSU : view (idle none none 4#32 [0x41#8, 0x42#8, 0x43#8, 0x44#8]) (one .decSU) = ok [0xAB#8, 0xCD#8] := by
  decide
/-- DE51: LEN = 3 is not read. -/
theorem test_decf : view (idle none (some 4) 3#32 [0x34#8, 0x38#8, 0x36#8, 0x39#8]) (one .decf) = ok [0x48#8, 0x69#8] := by
  decide
/-- DE47. -/
theorem test_decfSL : view (idle none (some 2) 0#32 [0x46#8, 0x66#8]) (one .decfSL) = inv 0#32 := by decide
/-- DE48. -/
theorem test_decfSU : view (idle none (some 2) 0#32 [0x46#8, 0x66#8]) (one .decfSU) = inv 1#32 := by decide

/-! ### START, refusals, reset -/

/-- ST2: before COMPLETE. -/
theorem test_busy_status : view (idle none none 2#32 [0x48#8, 0x69#8]) [startCmd .encL] =
    some ⟨4#32, 0#32, 0#32, [], none⟩ := by decide
/-- ST4: LEN is latched at START. -/
theorem test_len_latched : view (idle none none 2#32 [0x48#8, 0x69#8]) [startCmd .encL, wr .len 1#32, .engine] =
    ok [0x34#8, 0x38#8, 0x36#8, 0x39#8] := by decide
/-- RF1, RF6, RF8, RF9. -/
theorem test_refused_commands :
    view (idle none none 0#32 []) [wr .cmd 0x3#32] = refused .reservedCommand ∧
    view (idle none none 0#32 []) [startCmd .encL, startCmd .encL] =
      some ⟨4#32, 0#32, 0#32, [], some .commandWhileBusy⟩ ∧
    view (idle none (some 2) 0#32 []) [wr .cmd 0x8#32] = refused .fixedAbsent ∧
    view (idle (some 2) none 0#32 []) [wr .cmd 0xD#32] = refused .fixedAbsent := by decide
/-- RF11 and the start with LEN = IN_CAP, which is not refused. -/
theorem test_length_bound :
    view (idle none none 0xFFFFFFFF#32 []) [startCmd .dec] = refused .lengthOverCapacity ∧
    view (idle none none 9#32 []) [startCmd .encU] = refused .lengthOverCapacity ∧
    view (idle none none 8#32 []) [startCmd .encU] = some ⟨4#32, 0#32, 0#32, [], none⟩ := by decide
/-- RF7, RF12, RF14 to RF19. -/
theorem test_refused_accesses :
    view (idle none none 0#32 []) [startCmd .dec, wrbIn 0 0x30#8] =
      some ⟨4#32, 0#32, 0#32, [], some .inWriteWhileBusy⟩ ∧
    view (idle none none 0#32 []) [wr .status 0#32] = refused .readOnlyWrite ∧
    view (idle none none 0#32 []) [.access (.write .outBuf 0 (.byte 0#8))] = refused .readOnlyWrite ∧
    view (idle none none 0#32 []) [.access (.read .reg 0x14 .w32)] = refused .badOffset ∧
    view (idle none none 0#32 []) [.access (.read .reg 0x02 .w32)] = refused .badOffset ∧
    view (idle none none 0#32 []) [.access (.read .reg 0x08 .w8)] = refused .badWidth ∧
    view (idle none none 0#32 []) [.access (.read .inBuf 0 .w32)] = refused .badWidth ∧
    view (idle none none 0#32 []) [.access (.read .inBuf 8 .w8)] = refused .indexOutOfRange ∧
    view (idle none none 0#32 []) [.access (.read .outBuf 16 .w8)] = refused .indexOutOfRange := by decide
/-- RS2: an empty decode after reset succeeds. RS6: reset abandons a command. RS7: the mark stays. -/
theorem test_reset :
    view State.reset (one .dec) = ok [] ∧
    view (idle none none 0#32 []) [startCmd .dec, .rst, .engine] = some ⟨0#32, 0#32, 0#32, [], none⟩ ∧
    view (idle none none 0#32 []) [wr .cmd 0x3#32, .rst] = refused .reservedCommand := by decide
/-- R143 on program P1: from reset, on any capacity ≥ 2, it is a clean launch, since it fills what ENC.L reads. It is none if
it fills one byte only, if RST comes between the fill and START, or if LEN asks for a third byte, unless the claim
gives that byte's value. -/
theorem test_clean_launch :
    { State.resetOf ⟨inst 2 none none, rfl⟩ with
      script := fillFrom 0 [0x48#8, 0x69#8] ++ runCmd .encL 2#32 1 ++ [rd .outLen, rdbOut 0] }.cleanLaunch [] ∧
    ¬ { State.reset with script := wrbIn 0 0x48#8 :: runCmd .encL 2#32 1 }.cleanLaunch [] ∧
    ¬ { State.reset with script := fillFrom 0 [0x48#8, 0x69#8] ++ Event.rst :: runCmd .encL 2#32 1 }.cleanLaunch [] ∧
    ¬ { idle none none 0#32 [0x48#8, 0x69#8, 0x21#8] with
        script := fillFrom 0 [0x48#8, 0x69#8] ++ runCmd .encL 3#32 1 }.cleanLaunch [] ∧
    { idle none none 0#32 [0x48#8, 0x69#8, 0x21#8] with
        script := fillFrom 0 [0x48#8, 0x69#8] ++ runCmd .encL 3#32 1 }.cleanLaunch [(2, 0x21#8)] := by
  unfold State.cleanLaunch; decide
/-- ST10, ST11: what the host receives, newest first. -/
theorem test_replies :
    (after { idle none none 4#32 [0x34#8, 0x38#8, 0x67#8, 0x39#8] with
        script := [startCmd .dec, rd .status, .engine, rd .status, rd .errPos, rdbIn 2] } 6).map (·.replies) =
      some [.byte 0x67#8, .word 2#32, .word 3#32, .word 4#32] := by decide
/-- RS3: one undefined byte encodes to some two digits, with OK. -/
theorem test_undefined_input :
    (after { idle none none 1#32 [] with script := one .encL } 2).map (fun t => (t.statusWord, t.outLen, t.draws)) =
      some (1#32, 2#32, 1) := by decide

/-! ### Witnesses: for each statement with hypotheses, a state and operands that meet them all. Boundary values where
the statement has ranges. -/

/-- A block that has started a command of length `n`. -/
def started (i : Instr) (n : Nat) (s : State) : State := s.issue (encode i) i.job n

/-- What the engine's turn makes of a started block. -/
def ended (i : Instr) (n : Nat) (s : State) : State := (started i n s).completePending ⟨i.job, n⟩

theorem idle_inputIs (e d : Option Nat) (l : Word) (input : List Byte) (hl : (inst 8 e d).legal = true) :
    (idle e d l input hl).inputIs input := by
  intro k h
  simp [idle, h]

theorem ended_gives (i : Instr) (n : Nat) (s : State) : EngineGives (started i n s) (ended i n s) :=
  engineGives_of rfl rfl

/-- An idle block with both fixed lengths equal to the capacity, LEN too, and an undefined IN. -/
def full : State := idle (some 8) (some 8) 8#32 []

/-- "Hi" in IN, LEN = ENC_FIXED_N = 2, DEC_FIXED_N = 2. -/
def hi : State := idle (some 2) (some 2) 2#32 [0x48#8, 0x69#8]

/-- A text of four characters in IN, LEN = DEC_FIXED_N = 4. -/
def text (cs : List Byte) : State := idle none (some 4) 4#32 cs

theorem witness_ReservedWordsAreExactlyTheListed :
    decode 0x3#32 = .error .decodeCase ∧ decode 0x10#32 = .error .rsvBits ∧
    decode 0xFFFFFFFF#32 = .error .rsvBits ∧ hi.busy = false := by decide

theorem witness_PendingFieldsComeFromTheWordBits :
    (decode 0xD#32 = .ok .decfSL ∧ exec .decfSL hi = .next (started .decfSL 2 hi)) ∧
    decode 0x0#32 = .ok .encL ∧ exec .encL hi = .next (started .encL 2 hi) :=
  ⟨⟨by decide, rfl⟩, by decide, rfl⟩

theorem witness_StepRunsTheDecodedCommand : decode 0xF#32 = .ok .decfSU := by decide

theorem witness_EveryCommandStarts (i : Instr) :
    full.busy = false ∧ i.length full = some 8 ∧ 8 ≤ full.inst.inCap := by cases i <;> decide

theorem witness_StartRefusesForLengthOnly :
    (idle none none 9#32 []).busy = false ∧ Instr.encfL.length (idle none none 9#32 []) = none ∧
    Instr.decf.length (idle none none 9#32 []) = none ∧ Instr.dec.length (idle none none 9#32 []) = some 9 ∧
    (idle none none 9#32 []).inst.inCap < 9 ∧ full.busy = false ∧ Instr.dec.length full = some 8 ∧
    8 ≤ full.inst.inCap := by decide

theorem witness_FixedCommandsFitOnLegalInstances (i : Instr) (_ : i.slice ≠ i) :
    full.busy = false ∧ i.availableOn full.inst.toParams = true := by cases i <;> decide

theorem witness_FixedCommandsFitOnLegalInstances_fixed : Instr.slice .decfSU ≠ .decfSU := by decide

theorem witness_CommandWhileBusyIsRefused : (started .encL 2 hi).busy = true := by decide

theorem witness_EncodeCommandsWriteTheDigits (i : Instr) (hi' : i = .encL ∨ i = .encU ∨ i = .encfL ∨ i = .encfU) :
    (∃ c, i.job = .enc c) ∧ hi.busy = false ∧
    i.length hi = some [0x48#8, 0x69#8].length ∧ [0x48#8, 0x69#8].length ≤ hi.inst.inCap ∧
    hi.inputIs [0x48#8, 0x69#8] := by
  refine ⟨?_, rfl, ?_, by decide, idle_inputIs _ _ _ _ _⟩
  · rcases hi' with rfl | rfl | rfl | rfl <;> exact ⟨_, rfl⟩
  · rcases hi' with rfl | rfl | rfl | rfl <;> rfl

theorem witness_DecodeCommandsPackValidInput (i : Instr) (c : Case) (m : Mode) (h : i.job = .dec c m) :
    (text [0x34#8, 0x38#8, 0x36#8, 0x39#8]).busy = false ∧
    i.length (text [0x34#8, 0x38#8, 0x36#8, 0x39#8]) = some [0x34#8, 0x38#8, 0x36#8, 0x39#8].length ∧
    [0x34#8, 0x38#8, 0x36#8, 0x39#8].length ≤ (text [0x34#8, 0x38#8, 0x36#8, 0x39#8]).inst.inCap ∧
    (text [0x34#8, 0x38#8, 0x36#8, 0x39#8]).inputIs [0x34#8, 0x38#8, 0x36#8, 0x39#8] ∧
    [0x34#8, 0x38#8, 0x36#8, 0x39#8].length % 2 = 0 ∧
    ∀ ch ∈ [0x34#8, 0x38#8, 0x36#8, 0x39#8], (decLUT m ch).isSome := by
  refine ⟨rfl, ?_, by decide, idle_inputIs _ _ _ _ _, by decide, ?_⟩
  · revert h; cases i <;> simp [Instr.job] <;> intros <;> rfl
  · cases m <;> decide

theorem witness_SliceDecodesReportOddLength :
    ((idle none none 1#32 []).busy = false ∧ (idle none none 1#32 []).len.toNat % 2 = 1 ∧
      (idle none none 1#32 []).len.toNat ≤ (idle none none 1#32 []).inst.inCap) ∧
    (idle none none 7#32 []).len.toNat % 2 = 1 ∧
      (idle none none 7#32 []).len.toNat ≤ (idle none none 7#32 []).inst.inCap := by decide

theorem witness_DecodeCommandsReportTheFirstInvalid (i : Instr) (c : Case) (m : Mode) (h : i.job = .dec c m) :
    (text [0x34#8, 0x38#8, 0x67#8, 0x39#8]).busy = false ∧
    i.length (text [0x34#8, 0x38#8, 0x67#8, 0x39#8]) = some 4 ∧
    4 ≤ (text [0x34#8, 0x38#8, 0x67#8, 0x39#8]).inst.inCap ∧ 4 % 2 = 0 ∧
    (text [0x34#8, 0x38#8, 0x67#8, 0x39#8]).inputIs [0x34#8, 0x38#8, 0x67#8, 0x39#8] ∧
    decLUT m [0x34#8, 0x38#8, 0x67#8, 0x39#8][2] = none ∧
    (∀ k (h : k < 4), k < 2 → decLUT m [0x34#8, 0x38#8, 0x67#8, 0x39#8][k] ≠ none) ∧
    decLUT m [0x7A#8, 0x30#8, 0x30#8, 0x30#8][0] = none ∧
    decLUT m [0x30#8, 0x30#8, 0x30#8, 0x67#8][3] = none ∧
    ∀ k (h : k < 4), k < 3 → decLUT m [0x30#8, 0x30#8, 0x30#8, 0x67#8][k] ≠ none := by
  refine ⟨rfl, ?_, by decide, rfl, idle_inputIs _ _ _ _ _, ?_⟩
  · revert h; cases i <;> simp [Instr.job] <;> intros <;> rfl
  · cases m <;> decide

theorem witness_EncodeNeverFails :
    Instr.job .encL = .enc .l ∧ full.busy = false ∧ Instr.encL.length full = some 8 ∧
    8 ≤ full.inst.inCap ∧ Memory.read full.inBuf 0 = none := by decide

theorem witness_EncodeOutputStaysInTheAlphabet :
    Instr.job .encfU = .enc .u ∧ full.busy = false ∧ Instr.encfU.length full = some 8 ∧
    8 ≤ full.inst.inCap := by decide

theorem witness_CompletionReportsTheComputedResult :
    (started .encL 8 full).busy = true ∧ (started .encL 8 full).pending = some ⟨.enc .l, 8⟩ ∧
    8 ≤ (started .encL 8 full).inst.inCap ∧
    Job.compute (.dec .l .i) [0x7A#8] = .error .oddLength ∧
    Job.compute (.dec .l .i) [0x7A#8, 0x30#8] = .error (.invalidCharacter 0) ∧
    Job.compute (.dec .l .i) [0x34#8, 0x38#8] = .ok [0x48#8] :=
  ⟨rfl, rfl, by decide, rfl, rfl, rfl⟩

theorem witness_FixedAndSlicePathsAgree (i : Instr) :
    (full.busy = false ∧ i.length full = some 8 ∧ 8 ≤ full.inst.inCap ∧ 0 = full.draws) ∧
    hi.busy = false ∧ i.length hi = some 2 ∧ 2 ≤ hi.inst.inCap ∧
      hi.inputIs [0x48#8, 0x69#8] := by
  refine ⟨by cases i <;> decide, by decide, by cases i <;> decide, by decide, ?_⟩
  exact idle_inputIs _ _ _ _ _

theorem witness_ResultDependsOnOperandsOnly :
    (started .encL 2 hi).busy = true ∧ (started .encfL 2 (idle none none 5#32 [0x48#8, 0x69#8, 0x00#8])).busy = true ∧
    (started .encL 2 hi).pending = some ⟨.enc .l, 2⟩ ∧
    (started .encfL 2 (idle none none 5#32 [0x48#8, 0x69#8, 0x00#8])).pending = some ⟨.enc .l, 2⟩ ∧
    (started .encL 2 hi).inputIs [0x48#8, 0x69#8] ∧
    (started .encfL 2 (idle none none 5#32 [0x48#8, 0x69#8, 0x00#8])).inputIs [0x48#8, 0x69#8] := by
  refine ⟨rfl, rfl, rfl, rfl, idle_inputIs (some 2) (some 2) 2#32 _ rfl, ?_⟩
  intro k h
  have := idle_inputIs none none 5#32 [0x48#8, 0x69#8, 0x00#8] rfl k (Nat.lt_succ_of_lt h)
  match k, h, this with
  | 0, _, h' => exact h'
  | 1, _, h' => exact h'

theorem witness_FailedCommandLeavesNoOutput :
    (started .dec 4 (text [0x34#8, 0x38#8, 0x67#8, 0x39#8])).busy = true ∧
    EngineGives (started .dec 4 (text [0x34#8, 0x38#8, 0x67#8, 0x39#8]))
      (ended .dec 4 (text [0x34#8, 0x38#8, 0x67#8, 0x39#8])) ∧
    (ended .dec 4 (text [0x34#8, 0x38#8, 0x67#8, 0x39#8])).result = .invalidCharacter ∧
    (ended .dec 3 (text [0x34#8, 0x38#8, 0x67#8, 0x39#8])).result = .oddLength :=
  ⟨rfl, ended_gives .., by decide, by decide⟩

theorem witness_FixedDecodesNeverReportOddLength (i : Instr) (h : i = .decf ∨ i = .decfSL ∨ i = .decfSU) :
    exec i full = .next (started i 8 full) ∧ EngineGives (started i 8 full) (ended i 8 full) := by
  refine ⟨?_, ended_gives ..⟩
  rcases h with rfl | rfl | rfl <;> rfl

theorem witness_LengthIsLatchedAtStart :
    (started .encL 2 hi).busy = true ∧ EngineGives (started .encL 2 hi) (ended .encL 2 hi) :=
  ⟨rfl, ended_gives ..⟩

theorem witness_EncodeOutputElementOrder : 0 < [0x48#8, 0x69#8].length ∧ 1 < [0x48#8, 0x69#8].length := by decide

theorem witness_DecodeClosedForm :
    [0x61#8].length % 2 = 1 ∧ [0x7A#8, 0x7A#8].length % 2 = 0 ∧
    decodeSeq .i [0x7A#8, 0x7A#8] = .error (.invalidCharacter 0) ∧
    decodeSeq .i [0x30#8, 0x67#8] = .error (.invalidCharacter 1) ∧
    decodeSeq .i [0x61#8, 0x42#8] = .ok [0xAB#8] :=
  ⟨rfl, rfl, rfl, rfl, rfl⟩

theorem witness_DecodeSkipsNoCharacter : decodeSeq .sl [0x30#8, 0x61#8] = .ok [0x0A#8] := rfl

theorem witness_RoundTripOfEveryByteSequence :
    ∃ x ∈ [0xA0#8], 10 ≤ (hiNibble x).toNat ∨ 10 ≤ (loNibble x).toNat := by decide

theorem witness_EncodeThenDecodeOnTheBlock :
    Instr.job .encU = .enc .u ∧ Instr.job .decfSU = .dec .u .su ∧ hi.busy = false ∧
    Instr.encU.length hi = some [0x48#8, 0x69#8].length ∧ hi.inputIs [0x48#8, 0x69#8] ∧
    Instr.decfSU.length (text [0x34#8, 0x38#8, 0x36#8, 0x39#8]) = some (2 * [0x48#8, 0x69#8].length) ∧
    ∀ j, j < 4 → Memory.read (text [0x34#8, 0x38#8, 0x36#8, 0x39#8]).inBuf j =
      Memory.read (ended .encU 2 hi).outBuf j :=
  ⟨rfl, rfl, rfl, rfl, idle_inputIs _ _ _ _ _, rfl, by decide⟩

theorem witness_DecodeIgnoresLetterCase : ∀ ch ∈ [0x61#8, 0x42#8], (decLUT .i ch).isSome := by decide

theorem witness_OnlyLegalInstancesAreBuilt :
    (inst 4 (some 4) (some 4)).build = some ⟨inst 4 (some 4) (some 4), rfl⟩ ∧
    (inst (2 ^ 31 - 1) none (some 0)).build = some ⟨inst (2 ^ 31 - 1) none (some 0), rfl⟩ ∧
    (inst 4 (some 5) none).build = none ∧ (inst 4 none (some 5)).build = none := by decide

/-- The invariant holds of an idle block and of a busy one. -/
theorem hi_inv : hi.Inv where
  inWf := by decide
  inBelow := by decide
  outExact := by decide
  outFits := by decide
  busyPending := rfl
  pendingOfCmd := by intro p h; simp [hi, idle, State.resetOf] at h
  busyNoResult := by decide
  cmdLegal := ⟨.encL, rfl⟩
  errPosZero := fun _ => rfl
  outLenZero := fun _ => rfl
  oddFrom := by decide
  invalidFrom := by intro h; simp [hi, idle, State.resetOf] at h

theorem busy_inv : (started .decf 2 hi).Inv where
  inWf := by decide
  inBelow := by decide
  outExact := by decide
  outFits := by decide
  busyPending := rfl
  pendingOfCmd := by
    intro p h
    obtain rfl : (⟨.dec .l .i, 2⟩ : Pending) = p := by simpa [started, Instr.job] using h
    exact ⟨by decide, .decf, rfl, rfl, fun _ => rfl⟩
  busyNoResult := fun _ => rfl
  cmdLegal := ⟨.decf, rfl⟩
  errPosZero := fun _ => rfl
  outLenZero := fun _ => rfl
  oddFrom := by intro h; simp [started] at h
  invalidFrom := by intro h; simp [started] at h

theorem witness_StepKeepsTheInvariant :
    (started .decf 2 hi).Inv ∧ step (started .decf 2 hi) = .next (ended .decf 2 hi) := ⟨busy_inv, rfl⟩

theorem witness_NoStepStopsUnderTheInvariant : hi.Inv := hi_inv

theorem witness_EveryRunComesToRest : (started .decf 2 hi).Inv := busy_inv

theorem witness_RefusalMarkIsSticky :
    step { hi with script := [wr .cmd 0x3#32] } = .next { hi with mark := some .reservedCommand } ∧
    step { hi with script := [.rst], mark := some .badWidth } =
      .next { State.resetOf hi.inst with mark := some .badWidth } := ⟨rfl, rfl⟩

theorem witness_InputIsWrittenByTheHostOnly :
    step { hi with script := [wrbIn 7 0x00#8] } = .next { hi with inBuf := Memory.write hi.inBuf 7 0x00#8 } ∧
    Memory.write hi.inBuf 7 0x00#8 ≠ hi.inBuf ∧
    step { hi with script := [.rst] } = .next (State.resetOf hi.inst) ∧ (State.resetOf hi.inst).inBuf ≠ hi.inBuf :=
  ⟨rfl, by decide, rfl, by decide⟩

theorem witness_OutputIsWrittenByTheBlockOnly :
    step (started .encL 2 hi) = .next (ended .encL 2 hi) ∧ (ended .encL 2 hi).outBuf ≠ (started .encL 2 hi).outBuf ∧
    step { ended .encL 2 hi with script := [startCmd .encL] } = .next (started .encL 2 (ended .encL 2 hi)) ∧
    (started .encL 2 (ended .encL 2 hi)).outBuf ≠ (ended .encL 2 hi).outBuf ∧
    step { ended .encL 2 hi with script := [.rst] } = .next (State.resetOf hi.inst) ∧
    (State.resetOf hi.inst).outBuf ≠ (ended .encL 2 hi).outBuf :=
  ⟨rfl, by decide, rfl, by decide, rfl, by decide⟩

theorem witness_LenIsWrittenByTheHostOnly :
    step { hi with script := [wr .len 0xFFFFFFFF#32] } = .next { hi with len := 0xFFFFFFFF#32 } ∧
    step { hi with script := [.rst] } = .next (State.resetOf hi.inst) ∧ (State.resetOf hi.inst).len ≠ hi.len :=
  ⟨rfl, rfl, by decide⟩

theorem witness_OnlyACommandWriteSetsBusy :
    step { hi with script := [startCmd .decfSL] } = .next (started .decfSL 2 hi) ∧ hi.busy = false ∧
    (started .decfSL 2 hi).busy = true := ⟨rfl, rfl, rfl⟩

theorem witness_OnlyCompletionOrResetClearsBusy :
    step (started .encL 2 hi) = .next (ended .encL 2 hi) ∧ (started .encL 2 hi).busy = true ∧
    (ended .encL 2 hi).busy = false ∧
    step { started .encL 2 hi with script := [.rst] } = .next (State.resetOf hi.inst) ∧
    (State.resetOf hi.inst).busy = false := ⟨rfl, rfl, rfl, rfl, rfl⟩

theorem witness_ParametersNeverChange : step hi = .next hi := rfl

theorem witness_StatusReadsOneOfFiveValues : hi.Inv ∧ hi.statusWord = 0#32 ∧
    (started .decf 2 hi).Inv ∧ (started .decf 2 hi).statusWord = 4#32 := ⟨hi_inv, by decide, busy_inv, by decide⟩

theorem witness_BusyBlockShowsNoResult : (started .decf 2 hi).Inv ∧ (started .decf 2 hi).busy = true := ⟨busy_inv, rfl⟩

theorem witness_OutputIsDefinedExactlyBelowOutLen : hi.Inv := hi_inv

theorem witness_InputReadsAsWritten : hi.busy = false ∧ 0 < hi.inst.inCap ∧ 7 < hi.inst.inCap := by decide

theorem witness_InputWriteWhileBusyIsRefused :
    (started .decf 2 hi).busy = true ∧ 7 < (started .decf 2 hi).inst.inCap := by decide

theorem witness_BufferReadsReturnTheElement :
    1 < hi.inst.inCap ∧ Memory.read hi.inBuf 1 = some 0x69#8 ∧ 7 < hi.inst.inCap ∧ Memory.read hi.inBuf 7 = none ∧
    3 < 2 * hi.inst.inCap ∧ Memory.read (ended .encL 2 hi).outBuf 3 = some 0x39#8 ∧
    15 < 2 * hi.inst.inCap ∧ Memory.read (ended .encL 2 hi).outBuf 15 = none := by decide

theorem witness_IllegalAccessesAreRefusedByName :
    0x14 ∉ [0x00, 0x04, 0x08, 0x0C, 0x10] ∧ 0x02 ∉ [0x00, 0x04, 0x08, 0x0C, 0x10] ∧ hi.inst.inCap ≤ 8 ∧
    2 * hi.inst.inCap ≤ 16 := by decide

theorem witness_LegalShapesAreServed :
    Access.legalShape hi.inst.toParams (.read .outBuf 16 .w8) = false ∧ Access.legalShape hi.inst.toParams (.read .outBuf 15 .w8) = true ∧
    Access.legalShape hi.inst.toParams (.write .reg 0x04 (.word 5#32)) = true := by decide

theorem witness_AbandonedCommandIsUnobservable :
    (started .encL 2 hi).busy = true ∧ hi.inst = (started .encL 2 hi).inst ∧ hi.mark = (started .encL 2 hi).mark ∧
    hi.replies = (started .encL 2 hi).replies ∧ hi.draws = (started .encL 2 hi).draws := by decide

theorem witness_ResetGivesACleanLaunchUnlessRefused :
    step { started .encL 2 hi with script := [.rst] } = .next (State.resetOf hi.inst) ∧
    step { started .encL 2 hi with script := [.rst], mark := some .badOffset } =
      .next { State.resetOf hi.inst with mark := some .badOffset } := ⟨rfl, rfl⟩

/-- Both paths, at the capacity, on a block whose IN is undefined. -/
theorem witness_BootOrderGivesACleanLaunch (i : Instr) :
    full.mark = none ∧ full.busy = false ∧ full.pending = none ∧ (List.replicate 8 0x30#8).length ≤ full.inst.inCap ∧
    8 ≤ (List.replicate 8 0x30#8).length ∧ i.length { full with len := 8#32 } = some 8 ∧
    i.length full = some 8 := by
  cases i <;> decide

/-- One step into a clean launch the block is busy with a command of length 2. -/
theorem witness_CleanLaunchCommandsReadDefinedInput :
    { hi with script := [startCmd .encL, .engine] }.cleanLaunch [(0, 0x48#8), (1, 0x69#8)] ∧
    core.run 1 { hi with script := [startCmd .encL, .engine] } =
      .next { started .encL 2 hi with script := [.engine] } ∧
    ({ started .encL 2 hi with script := [.engine] } : State).pending = some ⟨.enc .l, 2⟩ := by
  refine ⟨?_, rfl, rfl⟩
  unfold State.cleanLaunch; decide

end Sys2Proof.Tests
end

