-- ==== Sys2Proof/Proofs/Scope.lean ====
section
/-! The scope of the model (00_scope.md): which parameters a block can have, and that a fixed-size
command fits on each such block. -/

namespace Sys2Proof

/-- R6 as the proof that legal parameters carry gives it (R8). -/
theorem LegalParams.constraints (q : LegalParams) :
    q.inCap ≤ 2 ^ 31 - 1 ∧ (∀ n, q.encFixedN = some n → n ≤ q.inCap) ∧
      ∀ n, q.decFixedN = some n → n ≤ q.inCap ∧ n % 2 = 0 :=
  (Params.legal_iff q.toParams).1 q.isLegal

theorem LegalParams.encFixedN_le_inCap (q : LegalParams) {n : Nat} (h : q.encFixedN = some n) : n ≤ q.inCap := by
  obtain ⟨-, henc, -⟩ := q.constraints
  exact henc n h

theorem LegalParams.decFixedN_le_inCap (q : LegalParams) {n : Nat} (h : q.decFixedN = some n) : n ≤ q.inCap := by
  obtain ⟨-, -, hdec⟩ := q.constraints
  exact (hdec n h).1

/-- Building succeeds exactly on legal parameters (R8). -/
theorem Params.exists_build_iff_legal (p : Params) : (∃ q, p.build = some q) ↔ p.legal = true := by
  simp only [Params.build_eq_some]
  constructor
  · rintro ⟨q, rfl⟩
    exact q.isLegal
  · intro hlegal
    exact ⟨⟨p, hlegal⟩, rfl⟩

/-- Settles O60: `Params.legal` is R6, `Params.build` checks it, and every state carries its proof. -/
theorem onlyLegalInstancesAreBuilt : Obligations.OnlyLegalInstancesAreBuilt :=
  ⟨fun p => (Params.exists_build_iff_legal p).trans (Params.legal_iff p),
    fun p q => (Params.build_eq_some p q).1,
    fun s => s.inst.constraints⟩

/-- A command has a length exactly where the parameter it takes the length from is present (R66, R88). -/
theorem Instr.isSome_length (i : Instr) (s : Machine.State) :
    (i.length s).isSome = i.availableOn s.inst.toParams := by
  cases i <;> rfl

/-- A fixed-size command, which is one that differs from its slice command, takes its length from the
parameters, not from LEN (R66, R93). -/
theorem Instr.length_eq_fixed {i : Instr} (hfixed : i.slice ≠ i) (s : Machine.State) :
    i.length s = s.inst.encFixedN ∨ i.length s = s.inst.decFixedN := by
  cases i with
  | encL | encU | dec | decSL | decSU => exact absurd rfl hfixed
  | encfL | encfU => exact .inl rfl
  | decf | decfSL | decfSU => exact .inr rfl

/-- The length of a fixed-size command is within the capacity, since a state holds legal parameters only (R6, R8). -/
theorem Instr.length_le_inCap_of_fixed {i : Instr} (hfixed : i.slice ≠ i) {s : Machine.State} {n : Nat}
    (hn : i.length s = some n) : n ≤ s.inst.inCap := by
  rcases Instr.length_eq_fixed hfixed s with henc | hdec
  · exact s.inst.encFixedN_le_inCap (henc ▸ hn)
  · exact s.inst.decFixedN_le_inCap (hdec ▸ hn)

/-- Settles O8: an idle block refuses START only for an absent length or one over the capacity (R88), and the
parameters rule out both. -/
theorem fixedCommandsFitOnLegalInstances : Obligations.FixedCommandsFitOnLegalInstances := by
  intro i s hidle hfixed havail
  obtain ⟨n, hn⟩ := Option.isSome_iff_exists.1 ((i.isSome_length s).trans havail)
  exact ⟨_, Machine.exec_next.2 ⟨hidle, n, hn, Instr.length_le_inCap_of_fixed hfixed hn, rfl⟩⟩

end Sys2Proof
end

/-! The state of the block (10_state.md): what a step can do to it, which event writes each component, the
invariant, and the values after reset. -/

namespace Sys2Proof

/-! ### Command words and lengths -/

/-- A word with RSV = 0 is its low four bits, zero-extended (R67). -/
theorem eq_setWidth_of_fieldRsv {w : Word} (hrsv : fieldRsv w = 0#28) : w = (w.extractLsb' 0 4).setWidth 32 := by
  have hnat : w.toNat / 16 % 2 ^ 28 = 0 := by
    simpa [fieldRsv, Nat.shiftRight_eq_div_pow] using congrArg BitVec.toNat hrsv
  apply BitVec.eq_of_toNat_eq
  simp only [BitVec.toNat_setWidth, BitVec.extractLsb'_toNat, Nat.shiftRight_zero]
  omega

/-- A word that decodes to a command is that command's word (R68). -/
theorem eq_encode_of_decode {w : Word} {i : Instr} (h : decode w = .ok i) : w = encode i := by
  have low : ∀ v : BitVec 4, ∀ i : Instr, decode (v.setWidth 32) = .ok i → v.setWidth 32 = encode i := by
    intro v i
    revert v
    cases i <;> decide
  by_cases hrsv : fieldRsv w = 0#28
  · rw [eq_setWidth_of_fieldRsv hrsv] at h ⊢
    exact low _ _ h
  · simp [decode, hrsv] at h

/-- A fixed-size command does not read LEN (R66). -/
theorem Instr.length_setLen {i : Instr} (hfixed : i.slice ≠ i) (s : Machine.State) (v : Word) :
    i.length (s.setLen v) = i.length s := by
  cases i with
  | encL | encU | dec | decSL | decSU => exact absurd rfl hfixed
  | encfL | encfU | decf | decfSL | decfSU => rfl

/-- A decode command of odd length is a slice command, since DEC_FIXED_N is even (R6, R112). -/
theorem Instr.slice_decode_of_odd_length {i : Instr} {c : Machine.Case} {m : Machine.Mode} {s : Machine.State}
    {n : Nat} (hjob : i.job = .dec c m) (hn : i.slice ≠ i → i.length s = some n) (hodd : n % 2 = 1) :
    i = .dec ∨ i = .decSL ∨ i = .decSU := by
  have hnot : s.inst.decFixedN ≠ some n := by
    intro h
    obtain ⟨-, -, hdec⟩ := s.inst.constraints
    obtain ⟨-, heven⟩ := hdec n h
    omega
  cases i with
  | encL | encU | encfL | encfU => cases hjob
  | dec => exact .inl rfl
  | decSL => exact .inr (.inl rfl)
  | decSU => exact .inr (.inr rfl)
  | decf | decfSL | decfSU => exact absurd (hn (by decide)) hnot

/-- No length that OUT can hold wraps in a 32-bit register (R6, R28). -/
theorem LegalParams.toNat_ofNat_of_le (q : LegalParams) {n : Nat} (h : n ≤ 2 * q.inCap) :
    (BitVec.ofNat 32 n).toNat = n := by
  obtain ⟨hcap, -, -⟩ := q.constraints
  rw [BitVec.toNat_ofNat]
  omega

end Sys2Proof

namespace Sys2Proof.Machine

/-- The register map is a bijection between the registers and their offsets (R22). -/
theorem Reg.ofOffset_eq_some {off : Nat} {r : Reg} : Reg.ofOffset off = some r ↔ off = r.offset := by
  constructor
  · intro h
    unfold Reg.ofOffset at h
    split_ifs at h <;> cases h <;> assumption
  · rintro rfl
    cases r <;> rfl

/-! ### What a command computes -/

@[simp] theorem length_encodeSeq (c : Case) (bs : List Byte) : (encodeSeq c bs).length = 2 * bs.length := by
  induction bs with
  | nil => rfl
  | cons b bs ih => simp only [encodeSeq_cons, List.length_cons, ih]; omega

/-- Every output character of ENCODE is a digit of the alphabet (R96). -/
theorem exists_alphabet_of_mem_encodeSeq {c : Case} {bs : List Byte} {ch : Byte} (h : ch ∈ encodeSeq c bs) :
    ∃ nib, ch = alphabet c nib := by
  induction bs with
  | nil => simp at h
  | cons b bs ih =>
    simp only [encodeSeq_cons, List.mem_cons] at h
    rcases h with rfl | rfl | h
    · exact ⟨_, rfl⟩
    · exact ⟨_, rfl⟩
    · exact ih h

/-- An output is at most twice as long as its input (R28). -/
theorem Job.length_le_of_compute_ok {j : Job} {bs out : List Byte} (h : j.compute bs = .ok out) :
    out.length ≤ 2 * bs.length := by
  cases j with
  | enc c =>
    obtain rfl : encodeSeq c bs = out := by simpa [Job.compute] using h
    simp
  | dec c m =>
    rcases decodeSeq_cases m bs with ⟨-, he⟩ | ⟨-, out', ho, hlen⟩ | ⟨-, j, hj, -⟩
    · cases he.symm.trans h
    · cases ho.symm.trans h
      omega
    · cases hj.symm.trans h

/-- ODD_LENGTH comes of a decode of an odd number of characters only (R103, R116). -/
theorem Job.compute_oddLength {j : Job} {bs : List Byte} (h : j.compute bs = .error .oddLength) :
    (∃ c m, j = .dec c m) ∧ bs.length % 2 = 1 := by
  cases j with
  | enc c => cases h
  | dec c m =>
    refine ⟨⟨c, m, rfl⟩, ?_⟩
    rcases decodeSeq_cases m bs with ⟨hodd, -⟩ | ⟨-, out', ho, -⟩ | ⟨-, j, hj, -⟩
    · exact hodd
    · cases ho.symm.trans h
    · cases hj.symm.trans h

/-- INVALID_CHARACTER comes of a decode only, at a position of its input (R104, R116). -/
theorem Job.compute_invalidCharacter {j : Job} {bs : List Byte} {k : Nat}
    (h : j.compute bs = .error (.invalidCharacter k)) : (∃ c m, j = .dec c m) ∧ k < bs.length := by
  cases j with
  | enc c => cases h
  | dec c m =>
    refine ⟨⟨c, m, rfl⟩, ?_⟩
    rcases decodeSeq_cases m bs with ⟨-, he⟩ | ⟨-, out', ho, -⟩ | ⟨-, j, hj, hlt⟩
    · cases he.symm.trans h
    · cases ho.symm.trans h
    · cases hj.symm.trans h
      exact hlt

/-! ### What COMPLETE leaves unchanged (R90) -/

section
variable (s : State) (p : Pending)

@[simp] theorem State.completePending_cmd : (s.completePending p).cmd = s.cmd := by simp [State.completePending]
@[simp] theorem State.completePending_len : (s.completePending p).len = s.len := by simp [State.completePending]
@[simp] theorem State.completePending_busy : (s.completePending p).busy = false := by simp [State.completePending]
@[simp] theorem State.completePending_inBuf : (s.completePending p).inBuf = s.inBuf := by simp [State.completePending]
@[simp] theorem State.completePending_inst : (s.completePending p).inst = s.inst := by simp [State.completePending]

/-- COMPLETE reports a result (R90). -/
theorem State.completePending_result_ne_none : (s.completePending p).result ≠ .none := by
  rcases completePending_cases p s with ⟨out, -, h⟩ | ⟨-, h⟩ | ⟨j, -, h⟩ <;> rw [h] <;> simp

/-- COMPLETE of an encode command reports OK with the digits of the bytes it reads (R90, R97). -/
theorem State.completePending_enc (c : Case) (n : Nat) :
    s.completePending ⟨.enc c, n⟩ =
      { s with draws := (s.input n).2 }.finish .ok 0x00000000#32 (encodeSeq c (s.input n).1) := rfl

theorem State.report_setLen (r : Except DecodeError (List Byte)) (v : Word) :
    (s.setLen v).report r = (s.report r).setLen v := by
  rcases r with (_ | _) | _ <;> rfl

/-- COMPLETE neither reads nor writes LEN (R25, R90). -/
theorem State.completePending_setLen (v : Word) :
    (s.setLen v).completePending p = (s.completePending p).setLen v :=
  State.report_setLen { s with draws := (s.input p.n).2 } _ v

end

/-- The engine's turn commutes with a write of LEN (R25, R138). -/
theorem engineTurn_setLen {s t : State} (h : engineTurn s = .next t) (v : Word) :
    engineTurn (s.setLen v) = .next (t.setLen v) := by
  rcases engineTurn_next h with ⟨hidle, rfl⟩ | ⟨hbusy, p, hp, rfl⟩
  · simp [engineTurn, hidle]
  · simp [engineTurn, complete, hbusy, hp, State.completePending_setLen]

/-! ### What a step can do to the block -/

/-- What a step can do to the components of R36, each case with the event it happens at. -/
inductive BlockStep (s : State) : State → Prop
  /-- A read, a refused access, or an engine's turn while BUSY = 0: every component is kept (R41, R122, R129). -/
  | keep (mark : Option Refusal) (script : List Event) (replies : List Datum) (draws : Nat) :
      BlockStep s { s with mark := mark, script := script, replies := replies, draws := draws }
  /-- COMPLETE (R90). -/
  | complete (p : Pending) (rest : List Event) : s.busy = true → s.pending = some p →
      (s.script = [] ∨ ∃ rest, s.script = .engine :: rest) →
      BlockStep s ({ s with script := rest }.completePending p)
  /-- RST (R130). -/
  | reset (rest : List Event) : s.script = .rst :: rest → BlockStep s { s with script := rest }.assertReset
  /-- A write of LEN (R42). -/
  | setLen (v : Word) (rest : List Event) : s.script = .access (.write .reg 0x04 (.word v)) :: rest →
      BlockStep s ({ s with script := rest }.setLen v)
  /-- A write of IN (R44). -/
  | setIn (k : Nat) (v : Byte) (rest : List Event) : s.script = .access (.write .inBuf k (.byte v)) :: rest →
      k < s.inst.inCap → s.busy = false → BlockStep s ({ s with script := rest }.setIn k v)
  /-- START (R88, R89). -/
  | start (i : Instr) (n : Nat) (rest : List Event) :
      s.script = .access (.write .reg 0x00 (.word (encode i))) :: rest → s.busy = false →
      i.length s = some n → n ≤ s.inst.inCap → BlockStep s ({ s with script := rest }.issue (encode i) i.job n)

/-- A read of a buffer element keeps the block (R43, R45). -/
theorem BlockStep.replyElement (s : State) (rest : List Event) (e : Option Byte) :
    BlockStep s ({ s with script := rest }.replyElement e) := by
  cases e with
  | none => exact .keep s.mark rest _ _
  | some b => exact .keep s.mark rest _ s.draws

/-- What a served host access does to the block (R41 to R45). -/
theorem BlockStep.of_serve {s t : State} {a : Access} {rest : List Event} (hs : s.script = .access a :: rest)
    (h : serve a { s with script := rest } = .next t) : BlockStep s t := by
  rcases serve_next h with ⟨off, r, -, -, rfl⟩ | ⟨k, -, -, rfl⟩ | ⟨k, -, -, rfl⟩ | ⟨off, v, rfl, hoff, rfl⟩ |
    ⟨k, v, rfl, hk, hidle, rfl⟩ | ⟨off, w, i, rfl, hoff, hw, hexec⟩
  · exact .keep s.mark rest _ s.draws
  · exact .replyElement s rest _
  · exact .replyElement s rest _
  · rw [Reg.ofOffset_eq_some.1 hoff] at hs
    exact .setLen v rest hs
  · exact .setIn k v rest hs hk hidle
  · obtain ⟨hidle, n, hn, hcap, rfl⟩ := exec_next.1 hexec
    rw [Reg.ofOffset_eq_some.1 hoff, eq_encode_of_decode hw] at hs
    exact .start i n rest hs hidle hn hcap

/-- What the engine's turn does to the block (R87, R90, R129). -/
theorem BlockStep.of_engineTurn {s t : State} {rest : List Event}
    (hs : s.script = [] ∨ ∃ rest, s.script = .engine :: rest)
    (h : engineTurn { s with script := rest } = .next t) : BlockStep s t := by
  rcases engineTurn_next h with ⟨-, rfl⟩ | ⟨hbusy, p, hp, rfl⟩
  · exact .keep s.mark rest s.replies s.draws
  · exact .complete p rest hbusy hp hs

/-- What a step does to the block (R54, R87). -/
theorem BlockStep.of_step {s t : State} (h : step s = .next t) : BlockStep s t := by
  rcases step_next h with ⟨hs, heng⟩ | ⟨rest, hs, heng⟩ | ⟨rest, hs, rfl⟩ | ⟨a, rest, hs, hserve⟩ |
    ⟨a, rest, r, -, -, rfl⟩
  · exact .of_engineTurn (rest := s.script) (.inl hs) heng
  · exact .of_engineTurn (.inr ⟨rest, hs⟩) heng
  · exact .reset rest hs
  · exact .of_serve hs hserve
  · exact .keep _ rest s.replies s.draws

/-! ### The invariant -/

/-- The invariant speaks of the components of R36 and the parameters only. -/
theorem State.Inv.keep {s : State} (h : s.Inv) (mark : Option Refusal) (script : List Event) (replies : List Datum)
    (draws : Nat) : { s with mark := mark, script := script, replies := replies, draws := draws }.Inv :=
  { h with }

theorem State.inv_resetOf (q : LegalParams) : (State.resetOf q).Inv where
  inWf := .nil
  inBelow := by simp [State.resetOf, Memory.below]
  outExact := rfl
  outFits := Nat.zero_le _
  busyPending := rfl
  pendingOfCmd := by simp [State.resetOf]
  busyNoResult := fun _ => rfl
  cmdLegal := ⟨.encL, rfl⟩
  errPosZero := fun _ => rfl
  outLenZero := fun _ => rfl
  oddFrom := by simp [State.resetOf]
  invalidFrom := by simp [State.resetOf]

/-- RST gives the block its state after power-on (R130). -/
theorem State.inv_assertReset (s : State) : s.assertReset.Inv :=
  (State.inv_resetOf s.inst).keep s.mark s.script s.replies s.draws

/-- A write of LEN leaves the length latched for a pending command (R25, R138). -/
theorem State.Inv.setLen {s : State} (h : s.Inv) (v : Word) : (s.setLen v).Inv where
  __ := h
  pendingOfCmd := by
    intro p hp
    obtain ⟨hcap, i, hcmd, hjob, hfix⟩ := h.pendingOfCmd p hp
    exact ⟨hcap, i, hcmd, hjob, fun hfixed => (i.length_setLen hfixed s v).trans (hfix hfixed)⟩

theorem State.Inv.setIn {s : State} (h : s.Inv) {k : Nat} (hk : k < s.inst.inCap) (v : Byte) : (s.setIn k v).Inv where
  __ := h
  inWf := Memory.wf_write h.inWf k v
  inBelow := Memory.below_write h.inBelow hk v

/-- START of a command within the capacity (R88, R89). -/
theorem State.Inv.issue {s : State} (h : s.Inv) {i : Instr} {n : Nat} (hn : i.length s = some n)
    (hcap : n ≤ s.inst.inCap) : (s.issue (encode i) i.job n).Inv where
  inWf := h.inWf
  inBelow := h.inBelow
  outExact := rfl
  outFits := Nat.zero_le _
  busyPending := rfl
  pendingOfCmd := by
    rintro p ⟨⟩
    exact ⟨hcap, i, rfl, rfl, fun _ => hn⟩
  busyNoResult := fun _ => rfl
  cmdLegal := ⟨i, rfl⟩
  errPosZero := fun _ => rfl
  outLenZero := fun _ => rfl
  oddFrom := by simp
  invalidFrom := by simp

/-- Reporting a result that R26 to R28 and R116 allow. -/
theorem State.Inv.finish {s : State} (h : s.Inv) {code : ResultCode} {pos : Word} {out : List Byte}
    (hfits : out.length ≤ 2 * s.inst.inCap) (hcode : code ≠ .invalidCharacter → pos = 0x00000000#32)
    (hout : code ≠ .ok → out = [])
    (hodd : code = .oddLength → s.cmd = encode .dec ∨ s.cmd = encode .decSL ∨ s.cmd = encode .decSU)
    (hinvalid : code = .invalidCharacter →
      pos.toNat < s.inst.inCap ∧ ∃ i c m, s.cmd = encode i ∧ i.job = .dec c m) :
    (s.finish code pos out).Inv where
  inWf := h.inWf
  inBelow := h.inBelow
  outExact := by simp only [finish_outBuf, finish_outLen, Memory.keys_image, s.inst.toNat_ofNat_of_le hfits]
  outFits := by simpa only [finish_outLen, finish_inst, s.inst.toNat_ofNat_of_le hfits] using hfits
  busyPending := rfl
  pendingOfCmd := by simp
  busyNoResult := by simp
  cmdLegal := h.cmdLegal
  errPosZero := hcode
  outLenZero := fun hne => by simp [hout hne]
  oddFrom := hodd
  invalidFrom := hinvalid

/-- COMPLETE of a command that agrees with CMD (R90, R116). -/
theorem State.Inv.completePending {s : State} (h : s.Inv) {p : Pending} (hp : s.pending = some p) :
    (s.completePending p).Inv := by
  obtain ⟨hcap, i, hcmd, hjob, hfix⟩ := h.pendingOfCmd p hp
  have hdrawn := h.keep s.mark s.script s.replies (s.input p.n).2
  rcases completePending_cases p s with ⟨out, hout, heq⟩ | ⟨hout, heq⟩ | ⟨j, hout, heq⟩ <;> rw [heq]
  · have hlen := Job.length_le_of_compute_ok hout
    rw [input_length] at hlen
    exact hdrawn.finish (hlen.trans (Nat.mul_le_mul_left 2 hcap)) (fun _ => rfl) (fun hne => absurd rfl hne)
      (by simp) (by simp)
  · obtain ⟨⟨c, m, hdec⟩, hodd⟩ := Job.compute_oddLength hout
    rw [input_length] at hodd
    have hslice := Instr.slice_decode_of_odd_length (hjob.symm.trans hdec) hfix hodd
    refine hdrawn.finish (Nat.zero_le _) (fun _ => rfl) (fun _ => rfl) (fun _ => ?_) (by simp)
    rcases hslice with rfl | rfl | rfl <;> simp [hcmd]
  · obtain ⟨⟨c, m, hdec⟩, hj⟩ := Job.compute_invalidCharacter hout
    rw [input_length] at hj
    have hpos : (BitVec.ofNat 32 j).toNat = j := s.inst.toNat_ofNat_of_le (by omega)
    exact hdrawn.finish (Nat.zero_le _) (fun hne => absurd rfl hne) (fun _ => rfl) (by simp)
      fun _ => ⟨hpos.trans_lt (hj.trans_le hcap), i, c, m, hcmd, hjob.symm.trans hdec⟩

theorem BlockStep.inv {s t : State} (hstep : BlockStep s t) (h : s.Inv) : t.Inv := by
  have hrest : ∀ rest, { s with script := rest }.Inv := fun rest => h.keep s.mark rest s.replies s.draws
  cases hstep with
  | keep mark script replies draws => exact h.keep mark script replies draws
  | complete p rest _ hp _ => exact (hrest rest).completePending hp
  | reset rest _ => exact State.inv_assertReset _
  | setLen v rest _ => exact (hrest rest).setLen v
  | setIn k v rest _ hk _ => exact (hrest rest).setIn hk v
  | start i n rest _ _ hn hcap => exact (hrest rest).issue hn hcap

/-- Settles O34: each thing a step can do to the block keeps the invariant. -/
theorem stepKeepsTheInvariant : Obligations.StepKeepsTheInvariant :=
  fun _ _ hinv hstep => (BlockStep.of_step hstep).inv hinv

/-- Settles O33: `State.reset` is the state after reset of one legal instance. -/
theorem resetMeetsTheInvariant : Obligations.ResetMeetsTheInvariant :=
  ⟨State.inv_resetOf, State.inv_resetOf _⟩

/-- Settles O44: BUSY = 1 goes with RESULT = NONE, and BUSY = 0 leaves the four codes of RESULT. -/
theorem statusReadsOneOfFiveValues : Obligations.StatusReadsOneOfFiveValues := by
  intro s h
  unfold State.statusWord
  cases hbusy : s.busy with
  | true => simp [h.busyNoResult hbusy, ResultCode.code]
  | false => cases s.result <;> simp [ResultCode.code]

/-! ### Which event writes each component -/

/-- Settles O38: IN is written by RST and by a write of IN. -/
theorem inputIsWrittenByTheHostOnly : Obligations.InputIsWrittenByTheHostOnly := by
  intro s t hstep hne
  cases BlockStep.of_step hstep with
  | keep | complete | setLen | start => exact absurd (by simp) hne
  | reset rest hs => exact .inl ⟨rest, hs⟩
  | setIn k v rest hs hk hidle => exact .inr ⟨k, v, rest, hs, hk, hidle⟩

/-- Settles O39: OUT is written by RST, START and COMPLETE. -/
theorem outputIsWrittenByTheBlockOnly : Obligations.OutputIsWrittenByTheBlockOnly := by
  intro s t hstep hne
  cases BlockStep.of_step hstep with
  | keep | setLen | setIn => exact absurd (by simp) hne
  | reset rest hs => exact .inl ⟨rest, hs⟩
  | start i n rest hs hidle => exact .inr (.inl ⟨_, i, rest, hs, decode_encode i, hidle⟩)
  | complete p rest hbusy _ hs => exact .inr (.inr ⟨hbusy, hs⟩)

/-- Settles O40: LEN is written by RST and by a write of LEN. -/
theorem lenIsWrittenByTheHostOnly : Obligations.LenIsWrittenByTheHostOnly := by
  intro s t hstep hne
  cases BlockStep.of_step hstep with
  | keep | complete | setIn | start => exact absurd (by simp) hne
  | reset rest hs => exact .inl ⟨rest, hs⟩
  | setLen v rest hs => exact .inr ⟨v, rest, hs, rfl⟩

/-- Settles O41: only START of an idle block leaves it busy, with its word in CMD. -/
theorem onlyACommandWriteSetsBusy : Obligations.OnlyACommandWriteSetsBusy := by
  intro s t hstep hidle hbusy
  cases BlockStep.of_step hstep with
  | keep | complete | reset | setLen | setIn => simp [hidle] at hbusy
  | start i n rest hs => exact ⟨_, i, rest, hs, decode_encode i, rfl⟩

/-- Settles O42: only RST and COMPLETE leave a busy block idle. -/
theorem onlyCompletionOrResetClearsBusy : Obligations.OnlyCompletionOrResetClearsBusy := by
  intro s t hstep hbusy hidle
  cases BlockStep.of_step hstep with
  | keep | setLen | setIn | start => simp [hbusy] at hidle
  | reset rest hs => exact .inl ⟨rest, hs⟩
  | complete p rest _ _ hs => exact .inr ⟨hs, State.completePending_result_ne_none _ p⟩

/-- Settles O43: nothing a step does to the block writes the parameters. -/
theorem parametersNeverChange : Obligations.ParametersNeverChange := by
  intro s t hstep
  cases BlockStep.of_step hstep with
  | keep | complete | reset | setLen | setIn | start => simp

/-! ### LEN and the output of an encode command -/

/-- Settles O48: the access is served by `State.setLen` in every state. -/
theorem lenWriteStoresAnyValue : Obligations.LenWriteStoresAnyValue :=
  fun _ _ => hostGives_of fun _ => rfl

/-- Settles O21: the write of LEN and the engine's turn commute. -/
theorem lengthIsLatchedAtStart : Obligations.LengthIsLatchedAtStart := by
  rintro s u v - ⟨hsched, hempty⟩
  exact ⟨s.setLen v, lenWriteStoresAnyValue s v, fun rest => engineTurn_setLen (hsched rest) v,
    engineTurn_setLen hempty v⟩

/-- Settles O16: OUT is ENCODE of the bytes read, whatever they are. -/
theorem encodeOutputStaysInTheAlphabet : Obligations.EncodeOutputStaysInTheAlphabet := by
  intro i c s n hjob hidle hn hcap
  refine ⟨s.issue (encode i) i.job n, _, exec_next.2 ⟨hidle, n, hn, hcap, rfl⟩, engineGives_of rfl rfl, ?_⟩
  intro j hj
  rw [hjob, State.completePending_enc, State.finish_outBuf, Memory.read_image]
  have hlt : j < (encodeSeq c ((s.issue (encode i) (.enc c) n).input n).1).length := by simpa using hj
  obtain ⟨nib, hnib⟩ := exists_alphabet_of_mem_encodeSeq (List.getElem_mem hlt)
  exact ⟨nib, by rw [List.getElem?_eq_getElem hlt, hnib]⟩

/-! ### Reads of the buffers -/

/-- An access that answers an element, by whether the element is defined (R31). -/
theorem hostGives_element {a : Access} {s : State} {e : Option Byte} (h : HostGives a s (s.replyElement e)) :
    (∀ b, e = some b → HostGives a s { s with replies := .byte b :: s.replies }) ∧
      (e = none → ∃ b, HostGives a s { s with replies := .byte b :: s.replies, draws := s.draws + 1 }) := by
  constructor
  · rintro b rfl
    exact h
  · rintro rfl
    exact ⟨_, h⟩

/-- The answer of an element does not depend on what is still to come. -/
theorem State.replyElement_script_update (s : State) (e : Option Byte) (rest : List Event) :
    { s with script := rest }.replyElement e = { s.replyElement e with script := rest } := by
  cases e <;> rfl

theorem hostGives_readIn {s : State} {k : Nat} (hk : k < s.inst.inCap) :
    HostGives (.read .inBuf k .w8) s (s.replyElement (Memory.read s.inBuf k)) :=
  hostGives_of fun rest => by simp [serve, readIn, hk, State.replyElement_script_update]

theorem hostGives_readOut {s : State} {k : Nat} (hk : k < 2 * s.inst.inCap) :
    HostGives (.read .outBuf k .w8) s (s.replyElement (Memory.read s.outBuf k)) :=
  hostGives_of fun rest => by simp [serve, readOut, hk, State.replyElement_script_update]

/-- Settles O51: in range, both buffers answer through `State.replyElement`. -/
theorem bufferReadsReturnTheElement : Obligations.BufferReadsReturnTheElement :=
  fun _ _ => ⟨fun hk => hostGives_element (hostGives_readIn hk), fun hk => hostGives_element (hostGives_readOut hk)⟩

/-! ### Reset -/

/-- Settles O54: the two buffers list no element, and `Config.inst` is legal. -/
theorem resetStateValues : Obligations.ResetStateValues := by
  intro q
  have hbuild : Config.inst.build = some ⟨Config.inst, rfl⟩ := (Params.build_eq_some _ _).2 rfl
  have hstatus : (State.resetOf q).statusWord = 0x00000000#32 := by
    simp [State.statusWord, State.resetOf, ResultCode.code]
  exact ⟨rfl, rfl, rfl, rfl, hstatus, rfl, rfl, rfl, Memory.read_nil, Memory.read_nil, by rw [hbuild]; rfl⟩

end Sys2Proof.Machine

/-! The memory map and the host port (20_memory.md): what each host access answers, which accesses are refused and
with which reason, and what the elements of the two buffers are. -/

namespace Sys2Proof.Machine

/-! ### The elements of OUT -/

/-- Settles O27: by induction on the input, one input byte and two output characters at a time. -/
theorem encodeOutputElementOrder : Obligations.EncodeOutputElementOrder := by
  intro c bs
  induction bs with
  | nil => intro k hk; exact absurd hk (Nat.not_lt_zero k)
  | cons b bs ih =>
    intro k hk
    cases k with
    | zero => exact ⟨rfl, rfl⟩
    | succ k => exact ih k (Nat.lt_of_succ_lt_succ hk)

/-- Settles O46: the invariant lists the defined indices of OUT. -/
theorem outputIsDefinedExactlyBelowOutLen : Obligations.OutputIsDefinedExactlyBelowOutLen := by
  intro s hinv j
  rw [Memory.read_isSome, hinv.outExact, List.mem_range]

/-! ### The registers -/

/-- Only the five offsets hold a register (R22, R46). -/
theorem Reg.ofOffset_eq_none {off : Nat} : Reg.ofOffset off = none ↔ off ∉ [0x00, 0x04, 0x08, 0x0C, 0x10] := by
  unfold Reg.ofOffset
  split_ifs <;> simp [*]

theorem hostGives_readRegister (s : State) (r : Reg) :
    HostGives (.read .reg r.offset .w32) s (s.reply (.word (s.readReg r))) :=
  hostGives_of fun _ => by cases r <;> rfl

/-- The field RESULT of STATUS, bits [1:0] (R26). -/
theorem State.statusWord_result (s : State) : s.statusWord.extractLsb' 0 2 = s.result.code := by
  unfold State.statusWord
  cases s.busy <;> cases s.result <;> rfl

/-- The field BUSY of STATUS, bit [2] (R26). -/
theorem State.statusWord_busy (s : State) : s.statusWord.getLsbD 2 = s.busy := by
  unfold State.statusWord
  cases s.busy <;> cases s.result <;> rfl

/-- The field RSV of STATUS, bits [31:3] (R26). -/
theorem State.statusWord_rsv (s : State) : s.statusWord.extractLsb' 3 29 = 0#29 := by
  unfold State.statusWord
  cases s.busy <;> cases s.result <;> rfl

/-- Settles O47: each offset is a register's, and STATUS has the three fields of R26. -/
theorem registerReadsReturnTheRegisters : Obligations.RegisterReadsReturnTheRegisters := by
  intro s
  refine ⟨hostGives_readRegister s .cmd, hostGives_readRegister s .len,
    ⟨s.statusWord, hostGives_readRegister s .status, ?_, s.statusWord_busy, s.statusWord_rsv⟩,
    hostGives_readRegister s .errPos, hostGives_readRegister s .outLen⟩
  rw [s.statusWord_result]
  cases s.result <;> rfl

/-! ### Writes of CMD -/

/-- A write of a command's word to CMD is the command's START (R42, R88). -/
theorem serve_writeCmd {w : Word} {i : Instr} (h : decode w = .ok i) (s : State) :
    serve (.write .reg 0x00 (.word w)) s = exec i s := by
  change writeCmd w s = exec i s
  simp only [writeCmd, h]

theorem exec_busy {s : State} (hbusy : s.busy = true) (i : Instr) : exec i s = .refused .commandWhileBusy := by
  simp [exec_eq_start, start, hbusy]

/-- While BUSY = 1 no word is taken (R42, R135). -/
theorem serve_writeCmd_busy {s : State} (hbusy : s.busy = true) (w : Word) :
    serve (.write .reg 0x00 (.word w)) s = .refused .commandWhileBusy := by
  change writeCmd w s = _
  unfold writeCmd
  cases decode w with
  | ok i => exact exec_busy hbusy i
  | error r => simp [hbusy]

/-- The host's next access, for a word given by its number in the opcode table (R62, R88). -/
theorem State.withFetchWord_toNat (s : State) (w : Word) :
    s.withFetchWord 32 w.toNat = { s with script := .access (.write .reg 0x00 (.word w)) :: s.script } := by
  have hword : BitVec.ofNat 32 (w.toNat % 2 ^ 32) = w := by
    rw [Nat.mod_eq_of_lt w.isLt, BitVec.ofNat_toNat, BitVec.setWidth_eq]
  rw [State.withFetchWord, hword]

/-- Settles O5: the port hands the word to the decoder, and the decoded command to `exec`. -/
theorem stepRunsTheDecodedCommand : Obligations.StepRunsTheDecodedCommand := by
  intro s w i rest hw
  refine ⟨?_, congrArg step (s.withFetchWord_toNat w)⟩
  change hostTurn (.write .reg 0x00 (.word w)) { s with script := rest } = _
  rw [hostTurn, serve_writeCmd hw]
  rfl

/-- Settles O9: BUSY is looked at before the word. -/
theorem commandWhileBusyIsRefused : Obligations.CommandWhileBusyIsRefused :=
  fun s w hbusy => hostRefused_of fun rest => serve_writeCmd_busy (s := { s with script := rest }) hbusy w

/-! ### Writes of IN -/

theorem hostGives_writeIn {s : State} {k : Nat} (hidle : s.busy = false) (hk : k < s.inst.inCap) (v : Byte) :
    HostGives (.write .inBuf k (.byte v)) s (s.setIn k v) :=
  hostGives_of fun _ => by simp [serve, writeIn, hk, hidle, State.setIn]

/-- Settles O49: read after write of the buffer, through the port. -/
theorem inputReadsAsWritten : Obligations.InputReadsAsWritten := by
  intro s k v hidle hk
  have hread : Memory.read (s.setIn k v).inBuf k = some v := by simp [Memory.read_write]
  have hgives : HostGives (.read .inBuf k .w8) (s.setIn k v) ((s.setIn k v).replyElement (some v)) :=
    hread ▸ hostGives_readIn hk
  exact ⟨s.setIn k v, hostGives_writeIn hidle hk v, hgives, fun j hj => by simp [Memory.read_write, hj], rfl⟩

/-- Settles O50: in range, BUSY decides. -/
theorem inputWriteWhileBusyIsRefused : Obligations.InputWriteWhileBusyIsRefused :=
  fun _ _ _ hbusy hk => hostRefused_of fun _ => by simp [serve, writeIn, hk, hbusy]

/-! ### Refused shapes -/

section
variable (s : State)

theorem hostRefused_badOffset {off : Nat} (h : Reg.ofOffset off = none) :
    HostRefused (.read .reg off .w32) s .badOffset ∧
      ∀ v, HostRefused (.write .reg off (.word v)) s .badOffset :=
  ⟨hostRefused_of fun _ => by simp [serve, readRegister, h],
    fun _ => hostRefused_of fun _ => by simp [serve, writeRegister, h]⟩

theorem hostRefused_in_outOfRange {k : Nat} (hk : s.inst.inCap ≤ k) :
    HostRefused (.read .inBuf k .w8) s .indexOutOfRange ∧
      ∀ v, HostRefused (.write .inBuf k (.byte v)) s .indexOutOfRange :=
  ⟨hostRefused_of fun _ => by simp [serve, readIn, hk.not_gt],
    fun _ => hostRefused_of fun _ => by simp [serve, writeIn, hk.not_gt]⟩

theorem hostRefused_out_outOfRange {k : Nat} (hk : 2 * s.inst.inCap ≤ k) :
    HostRefused (.read .outBuf k .w8) s .indexOutOfRange :=
  hostRefused_of fun _ => by simp [serve, readOut, hk.not_gt]

/-- STATUS, ERR_POS and OUT_LEN are read-only (R42). -/
theorem hostRefused_readOnlyRegister {r : Reg} (hcmd : r ≠ .cmd) (hlen : r ≠ .len) (v : Word) :
    HostRefused (.write .reg r.offset (.word v)) s .readOnlyWrite := by
  cases r with
  | cmd => exact absurd rfl hcmd
  | len => exact absurd rfl hlen
  | status | errPos | outLen => exact hostRefused_of fun _ => rfl

end

/-- Settles O52: a bad width and a write to OUT are refused for their shape alone, the others by the offset or the
index. -/
theorem illegalAccessesAreRefusedByName : Obligations.IllegalAccessesAreRefusedByName := by
  intro s
  refine ⟨fun _ => hostRefused_of fun _ => rfl, fun _ _ => hostRefused_of fun _ => rfl,
    fun off hoff => hostRefused_badOffset s (Reg.ofOffset_eq_none.2 hoff),
    fun k => ⟨hostRefused_of fun _ => rfl, hostRefused_of fun _ => rfl, fun _ => hostRefused_of fun _ => rfl⟩,
    fun k hk => hostRefused_in_outOfRange s hk, fun k hk => hostRefused_out_outOfRange s hk,
    fun _ _ => hostRefused_of fun _ => rfl, fun v => ⟨?_, ?_, ?_⟩⟩
  · exact hostRefused_readOnlyRegister s (r := .status) (by decide) (by decide) v
  · exact hostRefused_readOnlyRegister s (r := .errPos) (by decide) (by decide) v
  · exact hostRefused_readOnlyRegister s (r := .outLen) (by decide) (by decide) v

/-! ### Legal shapes -/

/-- R46 names a reason for every shape that is not legal. -/
theorem hostRefused_of_illegalShape {s : State} {a : Access} (h : a.legalShape s.inst.toParams = false) :
    ∃ r, HostRefused a s r := by
  obtain ⟨hread8, hwrite8, -, hbuf32, hinRange, houtRange, hout, -⟩ := illegalAccessesAreRefusedByName s
  cases a with
  | read sp off w =>
    obtain ⟨hin32, hout32, -⟩ := hbuf32 off
    cases sp <;> cases w
    case reg.w8 => exact ⟨_, hread8 off⟩
    case reg.w32 =>
      have hnone : Reg.ofOffset off = none := by simpa [Access.legalShape] using h
      exact ⟨_, (hostRefused_badOffset s hnone).1⟩
    case inBuf.w8 => exact ⟨_, (hinRange off (by simpa [Access.legalShape] using h)).1⟩
    case inBuf.w32 => exact ⟨_, hin32⟩
    case outBuf.w8 => exact ⟨_, houtRange off (by simpa [Access.legalShape] using h)⟩
    case outBuf.w32 => exact ⟨_, hout32⟩
  | write sp off d =>
    obtain ⟨-, -, hin32⟩ := hbuf32 off
    cases sp <;> cases d
    case reg.byte v => exact ⟨_, hwrite8 off v⟩
    case reg.word v =>
      cases hr : Reg.ofOffset off with
      | none => exact ⟨_, (hostRefused_badOffset s hr).2 v⟩
      | some r =>
        obtain rfl := Reg.ofOffset_eq_some.1 hr
        refine ⟨_, hostRefused_readOnlyRegister s ?_ ?_ v⟩ <;> rintro rfl <;> cases h
    case inBuf.byte v => exact ⟨_, (hinRange off (by simpa [Access.legalShape] using h)).2 v⟩
    case inBuf.word v => exact ⟨_, hin32 v⟩
    case outBuf.byte v => exact ⟨_, hout off _⟩
    case outBuf.word v => exact ⟨_, hout off _⟩

/-- An element's answer is a value for the host and perhaps a draw (R31). -/
theorem exists_hostGives_of_replyElement {a : Access} {s : State} {e : Option Byte}
    (h : HostGives a s (s.replyElement e)) :
    ∃ v d, HostGives a s { s with replies := v :: s.replies, draws := d } := by
  cases e with
  | some b => exact ⟨_, s.draws, h⟩
  | none => exact ⟨_, _, h⟩

/-- A read of a legal shape is served, BUSY or not (R41, R43, R45). -/
theorem hostGives_legalRead {s : State} {sp : Space} {off : Nat} {w : Width}
    (h : Access.legalShape s.inst.toParams (.read sp off w) = true) :
    ∃ v d, HostGives (.read sp off w) s { s with replies := v :: s.replies, draws := d } := by
  cases sp <;> cases w
  case reg.w32 =>
    obtain ⟨r, hr⟩ := Option.isSome_iff_exists.1 h
    obtain rfl := Reg.ofOffset_eq_some.1 hr
    exact ⟨_, s.draws, hostGives_readRegister s r⟩
  case inBuf.w8 => exact exists_hostGives_of_replyElement (hostGives_readIn (of_decide_eq_true h))
  case outBuf.w8 => exact exists_hostGives_of_replyElement (hostGives_readOut (of_decide_eq_true h))
  case reg.w8 | inBuf.w32 | outBuf.w32 => cases h

/-- Settles O53: every illegal shape is among those of O52, and a LEN write is O48. -/
theorem legalShapesAreServed : Obligations.LegalShapesAreServed := by
  refine fun s a => ⟨hostRefused_of_illegalShape, ?_, ?_⟩
  · rintro h sp off w rfl
    exact hostGives_legalRead h
  · rintro - v rfl
    exact lenWriteStoresAnyValue s v

end Sys2Proof.Machine

/-! The command word (30_encoding.md): the decoder's answer on every word, and what a command takes from the bits
of its word. -/

namespace Sys2Proof

open Machine

/-! ### Legal words -/

/-- Settles O2: a word with RSV = 0 is one of sixteen, and among these the decoder answers each row of the opcode
map once. -/
theorem decodeAcceptsExactlyTheEncodedWord : Obligations.DecodeAcceptsExactlyTheEncodedWord := by
  intro w i
  constructor
  · exact eq_encode_of_decode
  · rintro rfl
    exact decode_encode i

/-- Settles O1: each row's word, written out from its fields, is the word the encoder gives. -/
theorem tableWordsDecodeToTheirCommands : Obligations.TableWordsDecodeToTheirCommands :=
  ⟨decode_encode .encL, decode_encode .encU, decode_encode .encfL, decode_encode .encfU, decode_encode .dec,
    decode_encode .decSL, decode_encode .decSU, decode_encode .decf, decode_encode .decfSL, decode_encode .decfSU⟩

/-! ### Reserved words, by the reason -/

/-- What holds of a word with a bit of [31:4] set and of the sixteen words without holds of every word (R67). -/
theorem forall_word_of_rsv_of_low {P : Word → Prop} (hrsv : ∀ w, fieldRsv w ≠ 0#28 → P w)
    (hlow : ∀ v : BitVec 4, P (v.setWidth 32)) (w : Word) : P w := by
  by_cases h : fieldRsv w = 0#28
  · rw [eq_setWidth_of_fieldRsv h]
    exact hlow _
  · exact hrsv w h

theorem decode_of_fieldRsv {w : Word} (h : fieldRsv w ≠ 0#28) : decode w = .error .rsvBits := by
  simp [decode, h]

/-- R67's reserved words: a low word is legal or rejected for another field. -/
theorem decode_eq_rsvBits (w : Word) : decode w = .error .rsvBits ↔ fieldRsv w ≠ 0#28 := by
  revert w
  refine forall_word_of_rsv_of_low (fun w h => ?_) (by decide)
  simp [decode_of_fieldRsv h, h]

/-- R65's reserved words. -/
theorem decode_eq_encodeStrict (w : Word) : decode w = .error .encodeStrict ↔
    w = 0x00000004#32 ∨ w = 0x00000006#32 ∨ w = 0x0000000C#32 ∨ w = 0x0000000E#32 := by
  revert w
  refine forall_word_of_rsv_of_low (fun w h => ?_) (by decide)
  rw [decode_of_fieldRsv h]
  refine ⟨nofun, ?_⟩
  rintro (rfl | rfl | rfl | rfl) <;> exact absurd rfl h

/-- R64's reserved words. -/
theorem decode_eq_decodeCase (w : Word) : decode w = .error .decodeCase ↔
    w = 0x00000003#32 ∨ w = 0x0000000B#32 := by
  revert w
  refine forall_word_of_rsv_of_low (fun w h => ?_) (by decide)
  rw [decode_of_fieldRsv h]
  refine ⟨nofun, ?_⟩
  rintro (rfl | rfl) <;> exact absurd rfl h

/-- The decoder rejects exactly the words that no command has (R70). -/
theorem exists_decode_error_iff_ne_encode (w : Word) : (∃ r, decode w = .error r) ↔ ∀ i, w ≠ encode i := by
  constructor
  · rintro ⟨r, hr⟩ i rfl
    simp at hr
  · intro hne
    cases hw : decode w with
    | error r => exact ⟨r, rfl⟩
    | ok i => exact absurd (eq_encode_of_decode hw) (hne i)

/-- The list of R70: the words of each reason. -/
theorem exists_decode_error_iff_listed (w : Word) : (∃ r, decode w = .error r) ↔
    w = 0x00000003#32 ∨ w = 0x0000000B#32 ∨ w = 0x00000004#32 ∨ w = 0x00000006#32 ∨ w = 0x0000000C#32 ∨
      w = 0x0000000E#32 ∨ fieldRsv w ≠ 0#28 := by
  have hreasons : (∃ r, decode w = .error r) ↔ decode w = .error .decodeCase ∨ decode w = .error .encodeStrict ∨
      decode w = .error .rsvBits := by
    constructor
    · rintro ⟨r, hr⟩
      cases r <;> simp [hr]
    · rintro (h | h | h) <;> exact ⟨_, h⟩
  rw [hreasons, decode_eq_decodeCase, decode_eq_encodeStrict, decode_eq_rsvBits]
  simp only [or_assoc]

/-- An idle block takes no reserved word (R42, R70). -/
theorem Machine.serve_writeCmd_reserved {s : State} {w : Word} {r : Reserved} (hw : decode w = .error r)
    (hidle : s.busy = false) :
    serve (.write .reg 0x00 (.word w)) s = .refused .reservedCommand := by
  change writeCmd w s = _
  simp [writeCmd, hw, hidle]

/-- Settles O3: the reasons of the decoder cover the list of R70, and the port refuses what the decoder rejects. -/
theorem reservedWordsAreExactlyTheListed : Obligations.ReservedWordsAreExactlyTheListed :=
  ⟨exists_decode_error_iff_ne_encode, exists_decode_error_iff_listed, fun s _ _ hw hidle =>
    hostRefused_of fun rest => serve_writeCmd_reserved (s := { s with script := rest }) hw hidle⟩

/-! ### The pending record, from the bits of the word -/

/-- R69's `op`, `case` and `mode`. -/
theorem Instr.job_eq_of_fields (i : Instr) :
    i.job = if fieldOp (encode i) = false then .enc (if fieldCase (encode i) = false then .l else .u)
      else .dec (if fieldCase (encode i) = false then .l else .u)
        (if fieldStrict (encode i) = false then .i else if fieldCase (encode i) = false then .sl else .su) := by
  cases i <;> rfl

/-- R69's `n`. -/
theorem Instr.length_eq_of_fields (i : Instr) (s : State) :
    i.length s = if fieldFixed (encode i) = false then some s.len.toNat
      else if fieldOp (encode i) = false then s.inst.encFixedN else s.inst.decFixedN := by
  cases i <;> rfl

/-- Settles O4: a command that starts latches its job and its length, and its word's fields give both. -/
theorem pendingFieldsComeFromTheWordBits : Obligations.PendingFieldsComeFromTheWordBits := by
  intro s t w i hw hexec
  obtain rfl := eq_encode_of_decode hw
  obtain ⟨-, n, hn, -, rfl⟩ := exec_next.1 hexec
  exact ⟨⟨i.job, n⟩, rfl, i.job_eq_of_fields, (i.length_eq_of_fields s).symm.trans hn⟩

end Sys2Proof

/-! The datapath (40_datapath.md): the alphabets, the decode tables as their inverses, and the packer. -/

namespace Sys2Proof.Machine

/-! ### The alphabets -/

/-- R76, for both alphabets. -/
theorem alphabet_toNat (c : Case) (n : Nibble) : (alphabet c n).toNat =
    if n.toNat < 10 then 0x30 + n.toNat else (letterBase c).toNat + (n.toNat - 10) := by
  have hn := n.isLt
  unfold alphabet
  split
  · rw [BitVec.toNat_add, BitVec.toNat_setWidth, BitVec.toNat_ofNat]
    omega
  · cases c <;> simp only [letterBase] <;> bv_omega

/-- Settles O22: the letters of the two alphabets start at 0x61 and 0x41. -/
theorem alphabetCodes : Obligations.AlphabetCodes :=
  fun n => ⟨alphabet_toNat .l n, alphabet_toNat .u n⟩

/-! ### The decode tables -/

/-- The letters that a decode table takes from one alphabet (R79 to R81). -/
def letterNibble : Case → Byte → Option Nibble
  | .l => lowerNibble
  | .u => upperNibble

theorem digitNibble_eq_some {ch : Byte} {n : Nibble} :
    digitNibble ch = some n ↔ n.toNat < 10 ∧ ch.toNat = 0x30 + n.toNat := by
  have hn := n.isLt
  simp only [digitNibble, Option.ite_none_right_eq_some, Option.some.injEq, ← BitVec.toNat_inj, BitVec.toNat_ofNat]
  omega

theorem letterNibble_eq_some {c : Case} {ch : Byte} {n : Nibble} :
    letterNibble c ch = some n ↔ ¬ n.toNat < 10 ∧ ch.toNat = (letterBase c).toNat + (n.toNat - 10) := by
  have hn := n.isLt
  cases c <;>
    simp only [letterNibble, lowerNibble, upperNibble, letterBase, Option.ite_none_right_eq_some, Option.some.injEq,
      ← BitVec.toNat_inj, BitVec.toNat_ofNat] <;> omega

/-- A character of an alphabet is a digit or one of its letters (R76). -/
theorem eq_alphabet_iff {c : Case} {ch : Byte} {n : Nibble} :
    ch = alphabet c n ↔ digitNibble ch = some n ∨ letterNibble c ch = some n := by
  rw [← BitVec.toNat_inj, alphabet_toNat, digitNibble_eq_some, letterNibble_eq_some]
  by_cases hn : n.toNat < 10 <;> simp [hn]

/-- Two parts of a table that share no character can be tried in either order. -/
theorem or_eq_some_of_disjoint {a b : Option Nibble} (h : ∀ n, b = some n → a = none) {n : Nibble} :
    a.or b = some n ↔ a = some n ∨ b = some n := by
  rw [Option.or_eq_some_iff, and_iff_right_of_imp (h n)]

/-- No letter is a digit. -/
theorem digitNibble_eq_none_of_letterNibble {c : Case} {ch : Byte} {n : Nibble} (h : letterNibble c ch = some n) :
    digitNibble ch = none := by
  obtain ⟨-, hch⟩ := letterNibble_eq_some.1 h
  rw [Option.eq_none_iff_forall_ne_some]
  intro d hd
  obtain ⟨hlt, hdigit⟩ := digitNibble_eq_some.1 hd
  cases c <;> simp only [letterBase, BitVec.toNat_ofNat] at hch <;> omega

/-- No lower-case letter is an upper-case one. -/
theorem upperNibble_eq_none_of_lowerNibble {ch : Byte} {n : Nibble} (h : lowerNibble ch = some n) :
    upperNibble ch = none := by
  obtain ⟨-, hlow⟩ := letterNibble_eq_some (c := .l).1 h
  rw [Option.eq_none_iff_forall_ne_some]
  intro d hd
  obtain ⟨-, hup⟩ := letterNibble_eq_some (c := .u).1 hd
  have hdlt := d.isLt
  simp only [letterBase, BitVec.toNat_ofNat] at hlow hup
  omega

/-- R80. -/
theorem decLUT_sl_eq_some {ch : Byte} {n : Nibble} : decLUT .sl ch = some n ↔ ch = alphabet .l n :=
  (or_eq_some_of_disjoint fun _ => digitNibble_eq_none_of_letterNibble (c := .l)).trans eq_alphabet_iff.symm

/-- R81. -/
theorem decLUT_su_eq_some {ch : Byte} {n : Nibble} : decLUT .su ch = some n ↔ ch = alphabet .u n :=
  (or_eq_some_of_disjoint fun _ => digitNibble_eq_none_of_letterNibble (c := .u)).trans eq_alphabet_iff.symm

/-- The table `DEC_I` is the two strict tables together (R79). -/
theorem decLUT_i_eq_some {ch : Byte} {n : Nibble} :
    decLUT .i ch = some n ↔ ch = alphabet .l n ∨ ch = alphabet .u n := by
  have hletters (k : Nibble) : (upperNibble ch).or (lowerNibble ch) = some k ↔
      letterNibble .u ch = some k ∨ letterNibble .l ch = some k :=
    or_eq_some_of_disjoint fun _ => upperNibble_eq_none_of_lowerNibble
  have hdigits (k : Nibble) (hk : (upperNibble ch).or (lowerNibble ch) = some k) : digitNibble ch = none :=
    ((hletters k).1 hk).elim digitNibble_eq_none_of_letterNibble digitNibble_eq_none_of_letterNibble
  rw [eq_alphabet_iff, eq_alphabet_iff, decLUT, or_eq_some_of_disjoint hdigits, hletters]
  tauto

/-- Settles O23: each table tries parts of the alphabets that share no character. -/
theorem decodeTablesInvertTheAlphabets : Obligations.DecodeTablesInvertTheAlphabets :=
  fun _ _ => ⟨decLUT_sl_eq_some, decLUT_su_eq_some, decLUT_i_eq_some⟩

@[simp] theorem decLUT_sl_alphabet (n : Nibble) : decLUT .sl (alphabet .l n) = some n :=
  decLUT_sl_eq_some.2 rfl

@[simp] theorem decLUT_su_alphabet (n : Nibble) : decLUT .su (alphabet .u n) = some n :=
  decLUT_su_eq_some.2 rfl

/-- Mode I reads a digit of either alphabet (R79). -/
@[simp] theorem decLUT_i_alphabet (c : Case) (n : Nibble) : decLUT .i (alphabet c n) = some n := by
  rw [decLUT_i_eq_some]
  cases c with
  | l => exact .inl rfl
  | u => exact .inr rfl

/-! ### The packer -/

/-- The high nibble goes to bits [7:4], the low one to bits [3:0] (R83). -/
theorem pack_eq_append (h l : Nibble) : pack h l = h ++ l := by
  rw [pack, BitVec.append_def, BitVec.shiftLeftZeroExtend_eq, BitVec.setWidth'_eq]

/-- Settles O24: the low nibble fills the four bits that the shift leaves free. -/
theorem packIsSixteenHighPlusLow : Obligations.PackIsSixteenHighPlusLow := by
  intro h l
  rw [pack_eq_append, BitVec.toNat_append, ← Nat.shiftLeft_add_eq_or_of_lt l.isLt, Nat.shiftLeft_eq,
    Nat.mul_comm]

/-- A byte is its two nibbles (R18, R84). -/
@[simp] theorem pack_hiNibble_loNibble (b : Byte) : pack (hiNibble b) (loNibble b) = b :=
  (pack_eq_append _ _).trans BitVec.extractLsb'_append_extractLsb'

/-- Settles O25: a decode table inverts its alphabet, and the encoder's characters are the alphabet's digits for
the two nibbles of the byte. -/
theorem lookupsInvertEachOther : Obligations.LookupsInvertEachOther :=
  fun b => ⟨fun c => ⟨decLUT_i_alphabet c _, decLUT_i_alphabet c _⟩, decLUT_sl_alphabet _, decLUT_sl_alphabet _,
    decLUT_su_alphabet _, decLUT_su_alphabet _, pack_hiNibble_loNibble b⟩

/-! ### The number of accepted characters -/

/-- The codes a mode accepts: the ten digits, and six letters of each accepted case (R79 to R81). -/
def Mode.codes : Mode → List Nat
  | .i => List.range' 0x30 10 ++ List.range' 0x41 6 ++ List.range' 0x61 6
  | .sl => List.range' 0x30 10 ++ List.range' 0x61 6
  | .su => List.range' 0x30 10 ++ List.range' 0x41 6

theorem decLUT_isSome_iff_mem_codes {m : Mode} {ch : Byte} : (decLUT m ch).isSome ↔ ch.toNat ∈ m.codes := by
  have hdigit : (digitNibble ch).isSome ↔ 0x30 ≤ ch.toNat ∧ ch.toNat ≤ 0x39 := by simp [digitNibble]
  have hupper : (upperNibble ch).isSome ↔ 0x41 ≤ ch.toNat ∧ ch.toNat ≤ 0x46 := by simp [upperNibble]
  have hlower : (lowerNibble ch).isSome ↔ 0x61 ≤ ch.toNat ∧ ch.toNat ≤ 0x66 := by simp [lowerNibble]
  cases m <;>
    simp only [decLUT, Mode.codes, Option.isSome_or, Bool.or_eq_true, hdigit, hupper, hlower, List.mem_append,
      List.mem_range'_1] <;> omega

/-- A mode accepts as many of the 256 characters as its code ranges hold (R86). -/
theorem length_filter_decLUT_isSome (m : Mode) :
    ((List.range 256).filter fun k => (decLUT m (BitVec.ofNat 8 k)).isSome).length = m.codes.length := by
  have hcodes : m.codes.Nodup ∧ ∀ k ∈ m.codes, k < 256 := by cases m <;> decide
  obtain ⟨hnodup, hlt⟩ := hcodes
  refine ((List.perm_ext_iff_of_nodup (List.nodup_range.filter _) hnodup).2 fun k => ?_).length_eq
  rw [List.mem_filter, List.mem_range, decLUT_isSome_iff_mem_codes, BitVec.toNat_ofNat]
  constructor
  · rintro ⟨hk, hmem⟩
    rwa [Nat.mod_eq_of_lt hk] at hmem
  · intro hmem
    exact ⟨hlt k hmem, by rwa [Nat.mod_eq_of_lt (hlt k hmem)]⟩

/-- Settles O26: 10 + 6 + 6 codes in mode I, 10 + 6 in each strict mode. -/
theorem acceptanceCounts : Obligations.AcceptanceCounts :=
  ⟨length_filter_decLUT_isSome .i, length_filter_decLUT_isSome .sl, length_filter_decLUT_isSome .su⟩

end Sys2Proof.Machine

/-! Command issue and completion (41_command.md): when START is refused and what it makes of the block, what the
engine's step reports, and what the report depends on. -/

namespace Sys2Proof

/-! ### A command and its slice command -/

/-- A command and its slice command have one row of the opcode map but for the length (R68, R93). -/
@[simp] theorem Instr.job_slice (i : Instr) : i.slice.job = i.job := by
  cases i <;> rfl

/-- A slice command takes its length from LEN (R66). -/
@[simp] theorem Instr.length_slice (i : Instr) (s : Machine.State) : i.slice.length s = some s.len.toNat := by
  cases i <;> rfl

end Sys2Proof

namespace Sys2Proof.Machine

/-! ### START -/

/-- START of a length within the capacity of an idle block issues the command (R89). -/
theorem exec_of_length_le {i : Instr} {s : State} {n : Nat} (hn : i.length s = some n) (hidle : s.busy = false)
    (hcap : n ≤ s.inst.inCap) : exec i s = .next (s.issue (encode i) i.job n) :=
  exec_next.2 ⟨hidle, n, hn, hcap, rfl⟩

/-- R88's first refusal. -/
theorem exec_fixedAbsent {i : Instr} {s : State} (hidle : s.busy = false) (hn : i.length s = none) :
    exec i s = .refused .fixedAbsent := by
  simp [exec_eq_start, start, hidle, hn]

/-- R88's second refusal. -/
theorem exec_lengthOverCapacity {i : Instr} {s : State} {n : Nat} (hidle : s.busy = false)
    (hn : i.length s = some n) (hcap : s.inst.inCap < n) : exec i s = .refused .lengthOverCapacity := by
  simp [exec_eq_start, start, hidle, hn, hcap]

/-- Settles O6: R89's next state is `State.issue` of the command's word, job and length. -/
theorem everyCommandStarts : Obligations.EveryCommandStarts :=
  fun _ _ _ hidle hn hcap => exec_of_length_le hn hidle hcap

/-- Settles O7: the length is absent, above the capacity or within it. -/
theorem startRefusesForLengthOnly : Obligations.StartRefusesForLengthOnly :=
  fun _ _ hidle => ⟨exec_fixedAbsent hidle, fun _ hn hcap => exec_lengthOverCapacity hidle hn hcap,
    fun _ hn hcap => ⟨_, exec_of_length_le hn hidle hcap⟩⟩

/-! ### The engine's turn -/

/-- The engine has no step while BUSY = 0 (R90, R129). -/
theorem engineGives_self_of_idle {s : State} (hidle : s.busy = false) : EngineGives s s := by
  have hturn (rest : List Event) : engineTurn { s with script := rest } = .next { s with script := rest } := by
    simp [engineTurn, hidle]
  exact ⟨hturn, hturn []⟩

/-- Whatever the engine gives from a busy block is the completion of its pending command (R90). -/
theorem EngineGives.eq_completePending {s u : State} (h : EngineGives s u) (hbusy : s.busy = true) :
    ∃ p, s.pending = some p ∧ { u with script := [] } = { s with script := [] }.completePending p := by
  obtain ⟨-, hempty⟩ := h
  rcases engineTurn_next (s := { s with script := [] }) hempty with ⟨hidle, -⟩ | ⟨-, p, hp, hu⟩
  · exact absurd (hbusy.symm.trans hidle) (by decide)
  · exact ⟨p, hp, hu⟩

/-! ### The input a command reads -/

/-- Where an element is defined, the byte read for it is its value (R31, R90). -/
theorem getElem_inputFrom_of_read {m : Memory} {i d n k : Nat} {b : Byte} (hk : k < (inputFrom m i d n).1.length)
    (hb : Memory.read m (i + k) = some b) : (inputFrom m i d n).1[k] = b := by
  induction n generalizing i d k with
  | zero => simp at hk
  | succ n ih =>
    cases k with
    | zero =>
      have hi : Memory.read m i = some b := hb
      simp [inputFrom, hi]
    | succ k =>
      have hnext : Memory.read m (i + 1 + k) = some b := by rwa [Nat.add_assoc, Nat.add_comm 1 k]
      cases hi : Memory.read m i with
      | none => simpa [inputFrom, hi] using ih (by simpa using hk) hnext
      | some c => simpa [inputFrom, hi] using ih (by simpa using hk) hnext

theorem getElem_input_of_read {s : State} {n k : Nat} {b : Byte} (hk : k < (s.input n).1.length)
    (hb : Memory.read s.inBuf k = some b) : (s.input n).1[k] = b :=
  getElem_inputFrom_of_read hk (by rwa [Nat.zero_add])

/-! ### What a completion reports -/

section
variable (s : State) (p : Pending)

/-- COMPLETE writes none of what no command writes (R90). -/
theorem State.commandKeeps_completePending : s.commandKeeps (s.completePending p) := by
  simp [State.commandKeeps, State.completePending]

/-- What the block shows after a result is reported (R90). -/
theorem State.reports_finish {code : ResultCode} {pos : Word} {out : List Byte} {j n : Nat} (hpos : pos.toNat = j)
    (hlen : (BitVec.ofNat 32 out.length).toNat = n) : (s.finish code pos out).reports code j n :=
  ⟨rfl, rfl, rfl, hpos, hlen⟩

/-- A result without output leaves OUT undefined (R91). -/
theorem State.outUndefined_finish_nil (code : ResultCode) (pos : Word) : (s.finish code pos []).outUndefined :=
  Memory.read_nil

variable {s p}

/-- COMPLETE, by what the command computes from the bytes read (R90). -/
theorem State.completePending_of_compute {r : Except DecodeError (List Byte)}
    (h : p.job.compute (s.input p.n).1 = r) :
    s.completePending p = { s with draws := (s.input p.n).2 }.report r := by
  rw [State.completePending, h]

/-- An output of a command within the capacity is reported with its whole length, which no register wraps (R28). -/
theorem State.reports_completePending_ok {out : List Byte} (hcap : p.n ≤ s.inst.inCap)
    (h : p.job.compute (s.input p.n).1 = .ok out) : (s.completePending p).reports .ok 0 out.length := by
  have hlen := Job.length_le_of_compute_ok h
  rw [input_length] at hlen
  have hfits : (BitVec.ofNat 32 out.length).toNat = out.length :=
    s.inst.toNat_ofNat_of_le (hlen.trans (Nat.mul_le_mul_left 2 hcap))
  rw [State.completePending_of_compute h]
  exact State.reports_finish _ rfl hfits

/-- The position of an invalid character within the capacity is reported as it is (R27). -/
theorem State.reports_completePending_invalidCharacter {j : Nat} (hcap : p.n ≤ s.inst.inCap)
    (h : p.job.compute (s.input p.n).1 = .error (.invalidCharacter j)) :
    (s.completePending p).reports .invalidCharacter j 0 := by
  obtain ⟨-, hj⟩ := Job.compute_invalidCharacter h
  rw [input_length] at hj
  have hfits : (BitVec.ofNat 32 j).toNat = j := s.inst.toNat_ofNat_of_le (by omega)
  rw [State.completePending_of_compute h]
  exact State.reports_finish _ hfits rfl

end

/-- Settles O15: the byte sequence is the one the engine reads, and each case of R90 reports its result. -/
theorem completionReportsTheComputedResult : Obligations.CompletionReportsTheComputedResult := by
  refine ⟨fun s hidle => engineGives_self_of_idle hidle, ?_⟩
  intro s p hbusy hp hcap
  refine ⟨(s.input p.n).1, s.completePending p, input_length s p.n, fun k hk b => getElem_input_of_read hk,
    engineGives_of hbusy hp, s.completePending_cmd p, s.commandKeeps_completePending p, ?_, ?_, ?_⟩
  · intro out hout
    refine ⟨State.reports_completePending_ok hcap hout, fun j => ?_⟩
    rw [State.completePending_of_compute hout]
    exact Memory.read_image out j
  · intro hodd
    rw [State.completePending_of_compute hodd]
    exact ⟨State.reports_finish _ rfl rfl, State.outUndefined_finish_nil _ _ _⟩
  · intro pos hpos
    refine ⟨State.reports_completePending_invalidCharacter hcap hpos, ?_⟩
    rw [State.completePending_of_compute hpos]
    exact State.outUndefined_finish_nil _ _ _

/-- A reported error comes with no output (R90, R91). -/
theorem State.completePending_of_error {s : State} {p : Pending}
    (h : (s.completePending p).result = .oddLength ∨ (s.completePending p).result = .invalidCharacter) :
    (s.completePending p).outLen = 0x00000000#32 ∧ (s.completePending p).outUndefined := by
  rcases completePending_cases p s with ⟨out, -, hu⟩ | ⟨-, hu⟩ | ⟨j, -, hu⟩ <;> rw [hu] at h ⊢
  · simp at h
  · exact ⟨rfl, State.outUndefined_finish_nil _ _ _⟩
  · exact ⟨rfl, State.outUndefined_finish_nil _ _ _⟩

/-- Settles O19: the engine's turn from a busy block is a completion, and one that reports an error has no output. -/
theorem failedCommandLeavesNoOutput : Obligations.FailedCommandLeavesNoOutput := by
  intro s u hbusy hu herr
  obtain ⟨p, -, hcomplete⟩ := hu.eq_completePending hbusy
  have hfail := State.completePending_of_error (s := { s with script := [] }) (p := p)
  rw [← hcomplete] at hfail
  exact hfail herr

/-! ### What a report depends on -/

/-- Two blocks show the same result (R92, R93). -/
def State.sameReport (u u' : State) : Prop :=
  u'.result = u.result ∧ u'.errPos = u.errPos ∧ u'.outLen = u.outLen ∧ u'.outBuf = u.outBuf

/-- What is reported of a result does not depend on the block that reports it (R90). -/
theorem State.sameReport_report (s s' : State) (r : Except DecodeError (List Byte)) :
    (s.report r).sameReport (s'.report r) := by
  rcases r with (_ | j) | out <;> exact ⟨rfl, rfl, rfl, rfl⟩

/-- One pending command that reads one byte sequence reports the same on every block (R53, R92). -/
theorem State.sameReport_completePending {s s' : State} {p : Pending} (h : (s'.input p.n).1 = (s.input p.n).1) :
    (s.completePending p).sameReport (s'.completePending p) := by
  unfold State.completePending
  rw [h]
  exact State.sameReport_report _ _ _

/-- Settles O18: a defined input is read as it is, and the report depends on what is read. -/
theorem resultDependsOnOperandsOnly : Obligations.ResultDependsOnOperandsOnly := by
  intro s s' p bytes hbusy hbusy' hp hp' hlen hin hin'
  have hread : (s'.input p.n).1 = (s.input p.n).1 := by
    rw [← hlen, input_of_inputIs hin, input_of_inputIs hin']
  exact ⟨_, _, engineGives_of hbusy hp, engineGives_of hbusy' hp', State.sameReport_completePending hread⟩

/-- One IN is read as one byte sequence, for the same draws or where the elements read are defined (R31, R93). -/
theorem input_congr {s s' : State} {n : Nat} (hbuf : s'.inBuf = s.inBuf)
    (hdef : s'.draws = s.draws ∨ ∃ bytes, bytes.length = n ∧ s.inputIs bytes) :
    (s'.input n).1 = (s.input n).1 := by
  rcases hdef with hdraws | ⟨bytes, rfl, hin⟩
  · rw [State.input, State.input, hbuf, hdraws]
  · have hin' : s'.inputIs bytes := by rwa [State.inputIs, hbuf]
    rw [input_of_inputIs hin, input_of_inputIs hin']

/-- Settles O17: the two commands have one job and one length, so they leave one pending command, which reads one
byte sequence. -/
theorem fixedAndSlicePathsAgree : Obligations.FixedAndSlicePathsAgree := by
  intro i s n d hidle hn hcap hdef
  have hlen : i.slice.length { s with len := BitVec.ofNat 32 n, draws := d } = some n := by
    rw [Instr.length_slice, s.inst.toNat_ofNat_of_le (by omega)]
  have hslice := exec_of_length_le hlen hidle hcap
  rw [Instr.job_slice] at hslice
  have hread : (({ s with len := BitVec.ofNat 32 n, draws := d }.issue (encode i.slice) i.job n).input n).1 =
      ((s.issue (encode i) i.job n).input n).1 := input_congr rfl hdef
  obtain ⟨hresult, herrPos, houtLen, houtBuf⟩ := State.sameReport_completePending (p := ⟨i.job, n⟩) hread
  exact ⟨_, _, _, _, exec_of_length_le hn hidle hcap, engineGives_of rfl rfl, hslice, engineGives_of rfl rfl,
    hresult, herrPos, houtLen, houtBuf, by simp⟩

end Sys2Proof.Machine

/-! The encode commands (42_encode.md): what their START and COMPLETE make of an idle block, on any input and on
defined input. -/

namespace Sys2Proof.Machine

/-- START of an encode command within the capacity of an idle block (R89, R98 to R101). -/
theorem exec_enc {i : Instr} {c : Case} {s : State} {n : Nat} (hjob : i.job = .enc c) (hidle : s.busy = false)
    (hn : i.length s = some n) (hcap : n ≤ s.inst.inCap) : exec i s = .next (s.issue (encode i) (.enc c) n) :=
  hjob ▸ exec_of_length_le hn hidle hcap

/-- COMPLETE of an encode command reports OK and the length 2n, whatever it reads (R97). -/
theorem State.reports_completePending_enc {s : State} {n : Nat} (c : Case) (hcap : n ≤ s.inst.inCap) :
    (s.completePending ⟨.enc c, n⟩).reports .ok 0 (2 * n) := by
  have hreports := State.reports_completePending_ok (s := s) (p := ⟨.enc c, n⟩) hcap rfl
  rwa [length_encodeSeq, input_length] at hreports

/-- Settles O14: ENCODE has no error case, and its length depends on the number of the bytes read only. -/
theorem encodeNeverFails : Obligations.EncodeNeverFails :=
  ⟨length_encodeSeq, fun _ c _ _ hjob hidle hn hcap =>
    ⟨_, _, exec_enc hjob hidle hn hcap, engineGives_of rfl rfl, State.reports_completePending_enc c hcap⟩⟩

/-- COMPLETE of an encode command on defined input writes the digits of that input and draws nothing (R31, R90). -/
theorem State.completePending_enc_of_inputIs {s : State} {bytes : List Byte} (c : Case) (hin : s.inputIs bytes) :
    s.completePending ⟨.enc c, bytes.length⟩ = s.finish .ok 0x00000000#32 (encodeSeq c bytes) := by
  rw [State.completePending_enc, input_of_inputIs hin]

/-- OUT after ENCODE: the two digits of each byte in order, and nothing beyond them (R48, R90, R96). -/
theorem Memory.read_image_encodeSeq (c : Case) (bytes : List Byte) :
    (∀ k (h : k < bytes.length),
      Memory.read (Memory.image (encodeSeq c bytes)) (2 * k) = some (alphabet c (hiNibble bytes[k])) ∧
      Memory.read (Memory.image (encodeSeq c bytes)) (2 * k + 1) = some (alphabet c (loNibble bytes[k]))) ∧
    ∀ j, 2 * bytes.length ≤ j → Memory.read (Memory.image (encodeSeq c bytes)) j = none := by
  simp only [Memory.read_image]
  refine ⟨encodeOutputElementOrder c bytes, fun j hj => ?_⟩
  exact List.getElem?_eq_none ((length_encodeSeq c bytes).trans_le hj)

/-- Settles O10: COMPLETE of the issued command reads the defined input, and OUT is the image of its digits. -/
theorem encodeCommandsWriteTheDigits : Obligations.EncodeCommandsWriteTheDigits := by
  intro i c s bytes hjob hidle hlen hcap hin
  have hread : (s.issue (encode i) (.enc c) bytes.length).inputIs bytes := hin
  refine ⟨_, _, exec_enc hjob hidle hlen hcap, rfl, engineGives_of rfl rfl,
    State.reports_completePending_enc c hcap, State.completePending_cmd _ _,
    State.commandKeeps_completePending (s.issue _ _ _) _, ?_⟩
  rw [State.completePending_enc_of_inputIs c hread]
  exact ⟨rfl, Memory.read_image_encodeSeq c bytes⟩

end Sys2Proof.Machine

/-! The decode commands (43_decode.md): the closed form of DECODE, the round trip of ENCODE and DECODE, and what the
START and COMPLETE of a decode command make of an idle block. -/

namespace Sys2Proof.Machine

/-! ### The closed form of DECODE -/

/-- What follows a pair has even length where the whole has. -/
theorem even_length_of_cons_cons {h l : Byte} {rest : List Byte} (heven : (h :: l :: rest).length % 2 = 0) :
    rest.length % 2 = 0 := by
  simp only [List.length_cons] at heven
  omega

/-- The outputs of the decode loop over one more pair (R102). -/
theorem decodePairs_cons_cons_eq_ok {m : Mode} {pos : Nat} {h l : Byte} {rest out : List Byte} :
    decodePairs m pos (h :: l :: rest) = .ok out ↔ ∃ hn ln out', decLUT m h = some hn ∧ decLUT m l = some ln ∧
      decodePairs m (pos + 2) rest = .ok out' ∧ out = pack hn ln :: out' := by
  cases hh : decLUT m h with
  | none => simp [decodePairs_first hh]
  | some hn =>
    cases hl : decLUT m l with
    | none => simp [decodePairs_second hh hl]
    | some ln =>
      cases hr : decodePairs m (pos + 2) rest with
      | error e => simp [decodePairs_later hh hl hr]
      | ok out' => simp [decodePairs_valid hh hl hr, eq_comm]

/-- The errors of the decode loop after a pair of valid characters (R102). -/
theorem decodePairs_cons_cons_eq_error {m : Mode} {pos : Nat} {h l : Byte} {hn ln : Nibble} {rest : List Byte}
    {e : DecodeError} (hh : decLUT m h = some hn) (hl : decLUT m l = some ln) :
    decodePairs m pos (h :: l :: rest) = .error e ↔ decodePairs m (pos + 2) rest = .error e := by
  cases hr : decodePairs m (pos + 2) rest with
  | error e' => rw [decodePairs_later hh hl hr]
  | ok out => simp [decodePairs_valid hh hl hr]

/-- The outputs of the decode loop, by their bytes (R104). -/
theorem decodePairs_eq_ok {m : Mode} {pos : Nat} {s out : List Byte} (heven : s.length % 2 = 0) :
    decodePairs m pos s = .ok out ↔ out.length = s.length / 2 ∧ ∀ k (h : 2 * k + 1 < s.length), ∃ hn ln,
      decLUT m s[2 * k] = some hn ∧ decLUT m s[2 * k + 1] = some ln ∧ out[k]? = some (pack hn ln) := by
  match s with
  | [] => simp [eq_comm (b := out)]
  | [_] => simp at heven
  | h :: l :: rest =>
    simp only [decodePairs_cons_cons_eq_ok, decodePairs_eq_ok (even_length_of_cons_cons heven), List.length_cons]
    constructor
    · rintro ⟨hn, ln, out', hh, hl, ⟨hlen, hrest⟩, rfl⟩
      refine ⟨by simp only [List.length_cons]; omega, fun k hk => ?_⟩
      cases k with
      | zero => exact ⟨hn, ln, hh, hl, rfl⟩
      | succ k => exact hrest k (by omega)
    · rintro ⟨hlen, hpairs⟩
      obtain ⟨hn, ln, hh, hl, hout⟩ := hpairs 0 (by omega)
      obtain ⟨out', rfl⟩ := List.head?_eq_some_iff.1 (List.head?_eq_getElem?.trans hout)
      refine ⟨hn, ln, out', hh, hl, ⟨by simp only [List.length_cons] at hlen; omega, fun k hk => ?_⟩, rfl⟩
      exact hpairs (k + 1) (by omega)

/-- The error positions of the decode loop are those of the first character the mode does not accept (R104). -/
theorem decodePairs_eq_invalidCharacter {m : Mode} {pos j : Nat} {s : List Byte} (heven : s.length % 2 = 0) :
    decodePairs m pos s = .error (.invalidCharacter j) ↔
      ∃ k, s.findIdx? (fun ch => decLUT m ch = none) = some k ∧ j = pos + k := by
  match s with
  | [] => simp
  | [_] => simp at heven
  | h :: l :: rest =>
    have ih := decodePairs_eq_invalidCharacter (m := m) (pos := pos + 2) (j := j)
      (even_length_of_cons_cons heven)
    cases hh : decLUT m h with
    | none => simp [decodePairs_first hh, List.findIdx?_cons, hh, eq_comm]
    | some hn =>
      cases hl : decLUT m l with
      | none => simp [decodePairs_second hh hl, List.findIdx?_cons, hh, hl, eq_comm]
      | some ln =>
        rw [decodePairs_cons_cons_eq_error hh hl, ih]
        simp [List.findIdx?_cons, hh, hl, Nat.add_assoc, Nat.add_comm 2]

/-- Settles O28: DECODE of an even number of characters is the loop over their pairs from position 0. -/
theorem decodeClosedForm : Obligations.DecodeClosedForm := by
  refine fun m s => ⟨decodeSeq_odd, fun heven j => ?_, fun heven out => ?_⟩
  · rw [decodeSeq_even heven, decodePairs_eq_invalidCharacter heven]
    simp only [Nat.zero_add, exists_eq_right', List.findIdx?_eq_some_iff_getElem, decide_eq_true_eq]
    constructor
    · rintro ⟨hj, hnone, hfirst⟩
      exact ⟨⟨hj, hnone⟩, fun k _ hk => hfirst k hk⟩
    · rintro ⟨⟨hj, hnone⟩, hfirst⟩
      exact ⟨hj, hnone, fun k hk => hfirst k (hk.trans hj) hk⟩
  · rw [decodeSeq_even heven, decodePairs_eq_ok heven]

/-- Settles O29: an accepted sequence has even length, and each of its characters is the first or the second of a
pair that gave a byte. -/
theorem decodeSkipsNoCharacter : Obligations.DecodeSkipsNoCharacter := by
  intro m s out hdec
  obtain ⟨hodd, -, hok⟩ := decodeClosedForm m s
  have heven : s.length % 2 = 0 := by
    rw [← Nat.mod_two_ne_one]
    intro h
    cases (hodd h).symm.trans hdec
  obtain ⟨hlen, hpairs⟩ := (hok heven out).1 hdec
  refine ⟨by omega, fun ch hch => ?_⟩
  obtain ⟨i, hi, rfl⟩ := List.getElem_of_mem hch
  obtain ⟨k, rfl | rfl⟩ := Nat.even_or_odd' i
  · obtain ⟨hn, -, hfirst, -, -⟩ := hpairs k (by omega)
    exact ⟨hn, hfirst⟩
  · obtain ⟨-, ln, -, hsecond, -⟩ := hpairs k hi
    exact ⟨ln, hsecond⟩

/-- DECODE accepts every even number of characters that its mode accepts (R104). -/
theorem exists_decodeSeq_ok {m : Mode} {s : List Byte} (heven : s.length % 2 = 0)
    (hvalid : ∀ k (h : k < s.length), (decLUT m s[k]).isSome) : ∃ out, decodeSeq m s = .ok out := by
  rcases decodeSeq_cases m s with ⟨hodd, -⟩ | ⟨-, out, hout, -⟩ | ⟨-, j, herr, -⟩
  · omega
  · exact ⟨out, hout⟩
  · obtain ⟨-, hinvalid, -⟩ := decodeClosedForm m s
    obtain ⟨⟨hj, hnone⟩, -⟩ := (hinvalid heven j).1 herr
    exact absurd (hvalid j hj) (by simp [hnone])

/-! ### The round trip -/

/-- A table that inverts an alphabet decodes every encoding in it (R84, R114). -/
theorem decodePairs_encodeSeq {m : Mode} {c : Case} (hinv : ∀ n, decLUT m (alphabet c n) = some n) (pos : Nat)
    (b : List Byte) : decodePairs m pos (encodeSeq c b) = .ok b := by
  induction b generalizing pos with
  | nil => rfl
  | cons x b ih => rw [encodeSeq_cons, decodePairs_valid (hinv _) (hinv _) (ih _), pack_hiNibble_loNibble]

/-- The four pairings of a mode and an alphabet that R114 names. -/
theorem decodeSeq_encodeSeq {m : Mode} {c : Case} (hmode : m = .i ∨ (m = .sl ∧ c = .l) ∨ (m = .su ∧ c = .u))
    (b : List Byte) : decodeSeq m (encodeSeq c b) = .ok b := by
  have hinv : ∀ n, decLUT m (alphabet c n) = some n := by
    rcases hmode with rfl | ⟨rfl, rfl⟩ | ⟨rfl, rfl⟩
    · exact decLUT_i_alphabet c
    · exact decLUT_sl_alphabet
    · exact decLUT_su_alphabet
  rw [decodeSeq_even (by simp), decodePairs_encodeSeq hinv]

/-- The upper-case strict mode does not accept a lower-case letter (R81). -/
theorem decLUT_su_alphabet_l_of_letter {n : Nibble} (hn : 10 ≤ n.toNat) : decLUT .su (alphabet .l n) = none := by
  rw [Option.eq_none_iff_forall_ne_some]
  intro k hk
  have hcode := congrArg BitVec.toNat (decLUT_su_eq_some.1 hk)
  rw [alphabet_toNat, alphabet_toNat] at hcode
  have hlt := k.isLt
  simp only [letterBase, BitVec.toNat_ofNat] at hcode
  split_ifs at hcode <;> omega

theorem digits_mem_encodeSeq (c : Case) {x : Byte} {b : List Byte} (hx : x ∈ b) :
    alphabet c (hiNibble x) ∈ encodeSeq c b ∧ alphabet c (loNibble x) ∈ encodeSeq c b := by
  induction hx with
  | head => simp
  | tail y _ ih => simp [ih]

/-- Settles O30: an accepted text has no character outside the mode's table, and the encoding of a nibble from 10 on
is one outside of `DEC_SU`. -/
theorem roundTripOfEveryByteSequence : Obligations.RoundTripOfEveryByteSequence := by
  refine fun b => ⟨decodeSeq_encodeSeq (.inl rfl) b, decodeSeq_encodeSeq (.inl rfl) b,
    decodeSeq_encodeSeq (.inr (.inl ⟨rfl, rfl⟩)) b, decodeSeq_encodeSeq (.inr (.inr ⟨rfl, rfl⟩)) b, ?_⟩
  rintro ⟨x, hx, hletter⟩
  obtain ⟨hhi, hlo⟩ := digits_mem_encodeSeq .l hx
  cases hdec : decodeSeq .su (encodeSeq .l b) with
  | error e => exact ⟨e, rfl⟩
  | ok out =>
    obtain ⟨-, haccepted⟩ := decodeSkipsNoCharacter _ _ _ hdec
    rcases hletter with h | h
    · simpa [decLUT_su_alphabet_l_of_letter h] using haccepted _ hhi
    · simpa [decLUT_su_alphabet_l_of_letter h] using haccepted _ hlo

/-! ### Letter case -/

/-- A change of characters that the table does not see changes nothing (R102). -/
theorem decodePairs_map {m : Mode} {f : Byte → Byte} (pos : Nat) {s : List Byte}
    (h : ∀ ch ∈ s, decLUT m (f ch) = decLUT m ch) : decodePairs m pos (s.map f) = decodePairs m pos s := by
  match s with
  | [] => rfl
  | [_] => rfl
  | x :: y :: rest =>
    simp only [List.forall_mem_cons] at h
    obtain ⟨hx, hy, hrest⟩ := h
    simp only [List.map_cons, decodePairs, hx, hy, decodePairs_map (pos + 2) hrest]

theorem decodeSeq_map {m : Mode} {f : Byte → Byte} {s : List Byte}
    (h : ∀ ch ∈ s, decLUT m (f ch) = decLUT m ch) : decodeSeq m (s.map f) = decodeSeq m s := by
  simp only [decodeSeq, List.length_map, decodePairs_map 0 h]

/-- `to_uppercase` takes a digit of either alphabet to the upper-case digit of its nibble (R113). -/
theorem upperCode_alphabet (c : Case) (n : Nibble) : upperCode (alphabet c n) = alphabet .u n := by
  revert n
  cases c <;> decide

/-- `to_lowercase` takes a digit of either alphabet to the lower-case digit of its nibble (R113). -/
theorem lowerCode_alphabet (c : Case) (n : Nibble) : lowerCode (alphabet c n) = alphabet .l n := by
  revert n
  cases c <;> decide

theorem exists_alphabet_of_decLUT_isSome {ch : Byte} (h : (decLUT .i ch).isSome) : ∃ c n, ch = alphabet c n := by
  obtain ⟨n, hn⟩ := Option.isSome_iff_exists.1 h
  rcases decLUT_i_eq_some.1 hn with hl | hu
  · exact ⟨.l, n, hl⟩
  · exact ⟨.u, n, hu⟩

/-- Settles O32: both maps keep the nibble of a digit, and mode I reads the digits of both alphabets; a strict mode
rejects the other case's form of the text `aa` or `AA`. -/
theorem decodeIgnoresLetterCase : Obligations.DecodeIgnoresLetterCase := by
  refine ⟨fun t ht => ⟨decodeSeq_map fun ch hch => ?_, decodeSeq_map fun ch hch => ?_⟩,
    ⟨[0x61#8, 0x61#8], by decide, ?_⟩, ⟨[0x41#8, 0x41#8], by decide, ?_⟩⟩
  · obtain ⟨c, n, rfl⟩ := exists_alphabet_of_decLUT_isSome (ht ch hch)
    rw [upperCode_alphabet, decLUT_i_alphabet, decLUT_i_alphabet]
  · obtain ⟨c, n, rfl⟩ := exists_alphabet_of_decLUT_isSome (ht ch hch)
    rw [lowerCode_alphabet, decLUT_i_alphabet, decLUT_i_alphabet]
  · decide
  · decide

/-! ### The commands -/

/-- The block after START and COMPLETE of a command of length `n` (R89, R90). -/
def State.afterCommand (s : State) (i : Instr) (n : Nat) : State :=
  (s.issue (encode i) i.job n).completePending ⟨i.job, n⟩

/-- A command that START does not refuse runs to `State.afterCommand`. -/
theorem exists_afterCommand {i : Instr} {s : State} {n : Nat} (hn : i.length s = some n) (hidle : s.busy = false)
    (hcap : n ≤ s.inst.inCap) :
    ∃ t, exec i s = .next t ∧ t.busy = true ∧ EngineGives t (s.afterCommand i n) :=
  ⟨_, exec_of_length_le hn hidle hcap, rfl, engineGives_of rfl rfl⟩

section
variable {s : State} {i : Instr} {n : Nat} {c : Case} {m : Mode}

theorem State.afterCommand_cmd : (s.afterCommand i n).cmd = encode i :=
  State.completePending_cmd _ _

theorem State.commandKeeps_afterCommand : s.commandKeeps (s.afterCommand i n) :=
  State.commandKeeps_completePending (s.issue _ _ _) _

/-- A command whose input is defined draws nothing (R31). -/
theorem State.afterCommand_draws {bytes : List Byte} (hin : s.inputIs bytes) :
    (s.afterCommand i bytes.length).draws = s.draws := by
  have hin' : (s.issue (encode i) i.job bytes.length).inputIs bytes := hin
  rw [State.afterCommand, State.completePending, State.report_draws, input_of_inputIs hin', State.issue_draws]

/-- A decode command computes DECODE of the bytes it reads (R90, R102). -/
theorem compute_input_issue (hjob : i.job = .dec c m) :
    i.job.compute ((s.issue (encode i) i.job n).input n).1 = decodeSeq m (s.input n).1 := by
  rw [hjob]; rfl

/-- A decode command on an accepted text (R90). -/
theorem State.afterCommand_of_ok (hjob : i.job = .dec c m) (hcap : n ≤ s.inst.inCap) {out : List Byte}
    (hdec : decodeSeq m (s.input n).1 = .ok out) :
    (s.afterCommand i n).reports .ok 0 out.length ∧ (s.afterCommand i n).outBuf = Memory.image out := by
  have hcompute := (compute_input_issue hjob).trans hdec
  refine ⟨State.reports_completePending_ok hcap hcompute, ?_⟩
  rw [State.afterCommand, State.completePending_of_compute hcompute]
  rfl

/-- A decode command on a text of odd length (R90, R103). -/
theorem State.afterCommand_of_oddLength (hjob : i.job = .dec c m)
    (hdec : decodeSeq m (s.input n).1 = .error .oddLength) :
    (s.afterCommand i n).reports .oddLength 0 0 ∧ (s.afterCommand i n).outUndefined := by
  have hcompute := (compute_input_issue hjob).trans hdec
  rw [State.afterCommand, State.completePending_of_compute hcompute]
  exact ⟨State.reports_finish _ rfl rfl, State.outUndefined_finish_nil _ _ _⟩

/-- A decode command on a text with a character that its mode does not accept (R90, R104). -/
theorem State.afterCommand_of_invalidCharacter (hjob : i.job = .dec c m) (hcap : n ≤ s.inst.inCap) {j : Nat}
    (hdec : decodeSeq m (s.input n).1 = .error (.invalidCharacter j)) :
    (s.afterCommand i n).reports .invalidCharacter j 0 ∧ (s.afterCommand i n).outUndefined := by
  have hcompute := (compute_input_issue hjob).trans hdec
  refine ⟨State.reports_completePending_invalidCharacter hcap hcompute, ?_⟩
  rw [State.afterCommand, State.completePending_of_compute hcompute]
  exact State.outUndefined_finish_nil _ _ _

end

/-- DECODE sees the defined bytes as they are (R31, R71). -/
theorem decodeSeq_input_of_inputIs {s : State} {bytes : List Byte} (hin : s.inputIs bytes) (m : Mode) :
    decodeSeq m (s.input bytes.length).1 = decodeSeq m bytes := by
  rw [input_of_inputIs hin]

/-- Settles O11: DECODE accepts the input, and its closed form gives each byte of OUT. -/
theorem decodeCommandsPackValidInput : Obligations.DecodeCommandsPackValidInput := by
  intro i c m s bytes hjob hidle hlen hcap hin heven hvalid
  obtain ⟨t, ht, hbusy, hu⟩ := exists_afterCommand hlen hidle hcap
  obtain ⟨out, hdec⟩ := exists_decodeSeq_ok heven hvalid
  obtain ⟨-, -, hok⟩ := decodeClosedForm m bytes
  obtain ⟨houtlen, hpairs⟩ := (hok heven out).1 hdec
  obtain ⟨hreports, hout⟩ := State.afterCommand_of_ok hjob hcap ((decodeSeq_input_of_inputIs hin m).trans hdec)
  rw [houtlen] at hreports
  refine ⟨t, _, ht, hbusy, hu, hreports, State.afterCommand_cmd, State.commandKeeps_afterCommand,
    State.afterCommand_draws hin, ?_⟩
  simp only [hout, Memory.read_image]
  exact ⟨hpairs, fun j hj => List.getElem?_eq_none (houtlen.trans_le hj)⟩

/-- Settles O13: the closed form of DECODE names the first character that the mode does not accept. -/
theorem decodeCommandsReportTheFirstInvalid : Obligations.DecodeCommandsReportTheFirstInvalid := by
  intro i c m s bytes j hjob hidle hlen hcap hin heven hnone hfirst
  obtain ⟨t, ht, hbusy, hu⟩ := exists_afterCommand hlen hidle hcap
  obtain ⟨-, hinvalid, -⟩ := decodeClosedForm m bytes
  have hdec := (hinvalid heven j).2 ⟨hnone, hfirst⟩
  obtain ⟨hreports, hout⟩ :=
    State.afterCommand_of_invalidCharacter hjob hcap ((decodeSeq_input_of_inputIs hin m).trans hdec)
  exact ⟨t, _, ht, hbusy, hu, hreports, State.afterCommand_cmd, State.commandKeeps_afterCommand,
    State.afterCommand_draws hin, hout⟩

/-- Settles O12: the length check comes before any character is looked up, so what is read does not matter. -/
theorem sliceDecodesReportOddLength : Obligations.SliceDecodesReportOddLength := by
  intro i s hslice hidle hodd hcap
  have hrow : (∃ c m, i.job = .dec c m) ∧ i.length s = some s.len.toNat := by
    rcases hslice with rfl | rfl | rfl <;> exact ⟨⟨_, _, rfl⟩, rfl⟩
  obtain ⟨⟨c, m, hjob⟩, hlen⟩ := hrow
  obtain ⟨t, ht, hbusy, hu⟩ := exists_afterCommand hlen hidle hcap
  have hdec : decodeSeq m (s.input s.len.toNat).1 = .error .oddLength := decodeSeq_odd (by rwa [input_length])
  obtain ⟨hreports, hout⟩ := State.afterCommand_of_oddLength hjob hdec
  exact ⟨t, _, ht, hbusy, hu, hreports, State.afterCommand_cmd, State.commandKeeps_afterCommand, hout⟩

/-- Settles O20: an odd length would make the command a slice decode, since DEC_FIXED_N is even (R6). -/
theorem fixedDecodesNeverReportOddLength : Obligations.FixedDecodesNeverReportOddLength := by
  intro i s t u hfixed hexec hgives
  obtain ⟨-, n, hn, -, rfl⟩ := exec_next.1 hexec
  obtain ⟨p, hp, hu⟩ := hgives.eq_completePending rfl
  cases hp
  rcases completePending_cases ⟨i.job, n⟩ { s.issue (encode i) i.job n with script := [] } with
    ⟨out, -, hok⟩ | ⟨hcompute, -⟩ | ⟨j, -, hinvalid⟩
  · exact .inl (congrArg State.result (hu.trans hok))
  · obtain ⟨⟨c, m, hjob⟩, hodd⟩ := Job.compute_oddLength hcompute
    rw [input_length] at hodd
    have hslice := Instr.slice_decode_of_odd_length hjob (fun _ => hn) hodd
    rcases hfixed with rfl | rfl | rfl <;> simp at hslice
  · exact .inr (congrArg State.result (hu.trans hinvalid))

/-- A buffer that agrees with the image of some bytes as far as they go holds them as its input. -/
theorem State.inputIs_of_read_image {s : State} {bytes : List Byte}
    (h : ∀ j, j < bytes.length → Memory.read s.inBuf j = Memory.read (Memory.image bytes) j) : s.inputIs bytes := by
  intro j hj
  rw [h j hj, Memory.read_image, List.getElem?_eq_getElem hj]

/-- Settles O31: the copied IN holds the encoding, and DECODE of it gives the bytes back. -/
theorem encodeThenDecodeOnTheBlock : Obligations.EncodeThenDecodeOnTheBlock := by
  intro i d c c' m s s' b hi hd hmode hidle hlen hcap hin hidle' hlen' hcap'
  have hread : (s.issue (encode i) (.enc c) b.length).inputIs b := hin
  refine ⟨_, _, exec_enc hi hidle hlen hcap, engineGives_of rfl rfl, fun hcopy => ?_⟩
  rw [State.completePending_enc_of_inputIs c hread, State.finish_outBuf] at hcopy
  rw [← length_encodeSeq c b] at hcopy hlen' hcap'
  have hin' : s'.inputIs (encodeSeq c b) := State.inputIs_of_read_image hcopy
  obtain ⟨t, ht, -, hu⟩ := exists_afterCommand hlen' hidle' hcap'
  obtain ⟨hreports, hout⟩ := State.afterCommand_of_ok hd hcap'
    ((decodeSeq_input_of_inputIs hin' m).trans (decodeSeq_encodeSeq hmode b))
  exact ⟨t, _, ht, hu, hreports, fun j => by rw [hout, Memory.read_image]⟩

end Sys2Proof.Machine

/-! Exceptions and refusals (60_exceptions.md): the block raises no fault and stops at no event, and the refusal mark
is set by a refused access and by nothing else. -/

namespace Sys2Proof.Machine

/-! ### No step stops (R115) -/

/-- Where BUSY = 1 goes with a pending record (R33), the engine's turn does not fault (R90, R129). -/
theorem exists_engineTurn_next {s : State} (h : s.busy = s.pending.isSome) : ∃ t, engineTurn s = .next t := by
  cases hp : s.pending with
  | none => exact ⟨s, by simp [engineTurn, h, hp]⟩
  | some p => exact ⟨s.completePending p, by simp [engineTurn, complete, h, hp]⟩

/-- A host transaction's turn does not stop the run, in any state (R40, R122). -/
theorem exists_hostTurn_next (a : Access) (s : State) : ∃ t, hostTurn a s = .next t := by
  rcases hostTurn_cases a s with ⟨t, -, ht⟩ | ⟨r, -, ht⟩
  · exact ⟨t, ht⟩
  · exact ⟨s.markRefusal r, ht⟩

/-- Settles O35: of the three kinds of event only the engine's turn could fault, and the invariant gives it the
pending record it needs. -/
theorem noStepStopsUnderTheInvariant : Obligations.NoStepStopsUnderTheInvariant := by
  intro s hinv
  unfold step
  split
  case h_1 | h_2 => exact exists_engineTurn_next hinv.busyPending
  case h_3 => exact ⟨_, rfl⟩
  case h_4 => exact exists_hostTurn_next _ _

/-! ### What sets the refusal mark (R123) -/

/-- The engine's turn keeps the mark. -/
theorem engineTurn_mark {s t : State} (h : engineTurn s = .next t) : t.mark = s.mark := by
  rcases engineTurn_next h with ⟨-, rfl⟩ | ⟨-, p, -, rfl⟩
  · rfl
  · obtain ⟨-, -, hmark, -, -⟩ := State.commandKeeps_completePending s p
    exact hmark

/-- A served host access keeps the mark. -/
theorem serve_mark {a : Access} {s t : State} (h : serve a s = .next t) : t.mark = s.mark := by
  rcases serve_next h with ⟨off, r, -, -, rfl⟩ | ⟨k, -, -, rfl⟩ | ⟨k, -, -, rfl⟩ | ⟨off, v, -, -, rfl⟩ |
    ⟨k, v, -, -, -, rfl⟩ | ⟨off, w, i, -, -, -, hexec⟩
  case inr.inr.inr.inr.inr =>
    obtain ⟨-, n, -, -, rfl⟩ := exec_next.1 hexec
    exact State.issue_mark ..
  all_goals simp

/-- A step keeps the mark, or is a refused host access, which sets a mark that was clear (R123). -/
theorem step_mark {s t : State} (h : step s = .next t) :
    t.mark = s.mark ∨ ∃ a rest r, s.script = .access a :: rest ∧ serve a { s with script := rest } = .refused r ∧
      t.mark = s.mark.or (some r) := by
  rcases step_next h with ⟨-, heng⟩ | ⟨rest, -, heng⟩ | ⟨rest, -, rfl⟩ | ⟨a, rest, -, hserve⟩ |
    ⟨a, rest, r, hs, hrefused, rfl⟩
  · exact .inl (engineTurn_mark heng)
  · exact .inl (engineTurn_mark (s := { s with script := rest }) heng)
  · exact .inl rfl
  · exact .inl (serve_mark (s := { s with script := rest }) hserve)
  · exact .inr ⟨a, rest, r, hs, hrefused, rfl⟩

/-- Settles O37: the first refusal's reason stays, so a step that changes the mark is a refused access that found it
clear. -/
theorem refusalMarkIsSticky : Obligations.RefusalMarkIsSticky := by
  intro s t hstep
  rcases step_mark hstep with hkeep | ⟨a, rest, r, hs, hrefused, hmark⟩
  · exact ⟨fun _ hr => hkeep.trans hr, fun hne => absurd hkeep hne⟩
  · have hsticky : ∀ r₀, s.mark = some r₀ → t.mark = some r₀ := fun r₀ hr => by simp [hmark, hr]
    refine ⟨hsticky, fun hne => ⟨a, rest, r, hs, hrefused, ?_⟩⟩
    have hclear : s.mark = none :=
      Option.eq_none_iff_forall_ne_some.2 fun r₀ hr => hne ((hsticky r₀ hr).trans hr.symm)
    simpa [hclear] using hmark

end Sys2Proof.Machine

/-! Reset, hazards and the end of a run (70_reset_and_hazards.md): every run comes to rest, what RST leaves, and what
the launch premise gives for the commands of a program. -/

namespace Sys2Proof

/-- A command takes its length from LEN and the parameters only (R66, R69). -/
theorem Instr.length_congr (i : Instr) {s t : Machine.State} (hlen : t.len = s.len) (hinst : t.inst = s.inst) :
    i.length t = i.length s := by
  cases i <;> simp [Instr.length, hlen, hinst]

end Sys2Proof

namespace Sys2Proof.Machine

/-! ### What a step leaves of the script (R54, R87) -/

@[simp] theorem State.completePending_script (s : State) (p : Pending) :
    (s.completePending p).script = s.script := by
  simp [State.completePending]

@[simp] theorem State.completePending_pending (s : State) (p : Pending) : (s.completePending p).pending = none := by
  simp [State.completePending]

theorem engineTurn_script {s t : State} (h : engineTurn s = .next t) : t.script = s.script := by
  rcases engineTurn_next h with ⟨-, rfl⟩ | ⟨-, p, -, rfl⟩
  · rfl
  · exact s.completePending_script p

theorem serve_script {a : Access} {s t : State} (h : serve a s = .next t) : t.script = s.script := by
  rcases serve_next h with ⟨off, r, -, -, rfl⟩ | ⟨k, -, -, rfl⟩ | ⟨k, -, -, rfl⟩ | ⟨off, v, -, -, rfl⟩ |
    ⟨k, v, -, -, -, rfl⟩ | ⟨off, w, i, -, -, -, hexec⟩
  case inr.inr.inr.inr.inr =>
    obtain ⟨-, n, -, -, rfl⟩ := exec_next.1 hexec
    exact State.issue_script ..
  all_goals simp

/-- A step uses up the first event of the script. -/
theorem step_script {s t : State} (h : step s = .next t) : t.script = s.script.tail := by
  rcases step_next h with ⟨hs, heng⟩ | ⟨rest, hs, heng⟩ | ⟨rest, hs, rfl⟩ | ⟨a, rest, hs, hserve⟩ |
    ⟨a, rest, r, hs, -, rfl⟩
  · simp [engineTurn_script heng, hs]
  · simp [engineTurn_script heng, hs]
  · simp [hs]
  · simp [serve_script hserve, hs]
  · simp [hs]

/-! ### Every run comes to rest -/

/-- The engine's turn leaves the block idle (R90, R129). -/
theorem engineTurn_idle {s t : State} (h : engineTurn s = .next t) : t.busy = false := by
  rcases engineTurn_next h with ⟨hidle, rfl⟩ | ⟨-, p, -, rfl⟩
  · exact hidle
  · exact s.completePending_busy p

/-- A run that is refused stays refused (R123, R141). -/
theorem State.refusedRun.of_step {s t : State} (h : s.refusedRun) (hstep : step s = .next t) : t.refusedRun := by
  obtain ⟨r, hr⟩ := Option.ne_none_iff_exists'.1 h
  obtain ⟨hsticky, -⟩ := refusalMarkIsSticky s t hstep
  exact fun hclear => by simpa [hclear] using hsticky r hr

/-- A run that is at rest is finished or refused (R141). -/
theorem State.finished_or_refusedRun {s : State} (hscript : s.script = []) (hidle : s.busy = false) :
    s.finished ∨ s.refusedRun := by
  by_cases hmark : s.mark = none
  · exact .inl ⟨hscript, hidle, hmark⟩
  · exact .inr hmark

/-- A step from a state that meets the invariant (R54, R115). -/
theorem State.Inv.exists_step {s : State} (h : s.Inv) :
    ∃ u, step s = .next u ∧ u.Inv ∧ u.script = s.script.tail := by
  obtain ⟨u, hu⟩ := noStepStopsUnderTheInvariant s h
  exact ⟨u, hu, stepKeepsTheInvariant s u h hu, step_script hu⟩

/-- The run at rest, by induction on the script: each event takes one step, and one more completes a command in
progress (R139). -/
theorem exists_run_rest (script : List Event) {s : State} (hinv : s.Inv) (hs : s.script = script) :
    ∃ t : State, core.run (script.length + 1) s = .next t ∧ t.busy = false ∧ t.script = [] ∧ t.Inv ∧
      (s.refusedRun → t.refusedRun) := by
  induction script generalizing s with
  | nil =>
    obtain ⟨u, hu, hinvu, hscript⟩ := hinv.exists_step
    have heng : engineTurn s = .next u := by simpa [step, hs] using hu
    exact ⟨u, run_of_step hu, engineTurn_idle heng, by simp [hscript, hs], hinvu, (·.of_step hu)⟩
  | cons e rest ih =>
    obtain ⟨u, hu, hinvu, hscript⟩ := hinv.exists_step
    obtain ⟨t, hrun, hidle, hscriptt, hinvt, hrefused⟩ := ih hinvu (by simp [hscript, hs])
    exact ⟨t, (run_of_step hu).trans hrun, hidle, hscriptt, hinvt, fun h => hrefused (h.of_step hu)⟩

/-- Settles O36: the run at rest, whose mark says whether it is finished or refused. -/
theorem everyRunComesToRest : Obligations.EveryRunComesToRest := by
  intro s hinv
  obtain ⟨t, hrun, hidle, hscript, hinvt, hrefused⟩ := exists_run_rest s.script hinv rfl
  exact ⟨t, hrun, hidle, hscript, hinvt, State.finished_or_refusedRun hscript hidle, hrefused⟩

/-! ### A busy block -/

/-- Settles O45: under the invariant BUSY = 1 goes with RESULT = NONE, which leaves ERR_POS and OUT_LEN zero and so
no element of OUT defined. -/
theorem busyBlockShowsNoResult : Obligations.BusyBlockShowsNoResult := by
  intro s hinv hbusy
  have hresult : s.result = .none := hinv.busyNoResult hbusy
  have hlen : s.outLen = 0x00000000#32 := hinv.outLenZero (by simp [hresult])
  refine ⟨by simp [State.statusWord, hbusy, hresult, ResultCode.code], hinv.errPosZero (by simp [hresult]), hlen, ?_⟩
  intro j
  have hundef := outputIsDefinedExactlyBelowOutLen s hinv j
  simpa [hlen] using hundef

/-! ### RST -/

/-- A step at RST (R130). -/
theorem step_rst (s : State) (rest : List Event) :
    step { s with script := .rst :: rest } = .next { s with script := rest }.assertReset := rfl

/-- The block after RST holds nothing of the block before it (R130, R131). -/
theorem State.assertReset_congr {s s' : State} (hinst : s'.inst = s.inst) (hmark : s'.mark = s.mark)
    (hscript : s'.script = s.script) (hreplies : s'.replies = s.replies) (hdraws : s'.draws = s.draws) :
    s'.assertReset = s.assertReset := by
  simp only [State.assertReset, hinst, hmark, hscript, hreplies, hdraws]

/-- Settles O55: the step at RST is `State.assertReset`. -/
theorem resetInputClearsTheBlock : Obligations.ResetInputClearsTheBlock := step_rst

/-- Settles O56: the state after RST is given by what lies outside the block. -/
theorem abandonedCommandIsUnobservable : Obligations.AbandonedCommandIsUnobservable := by
  intro s s' rest _ hinst hmark hreplies hdraws
  refine ⟨step_rst s rest, ?_⟩
  rw [step_rst, step_rst,
    State.assertReset_congr (s := { s with script := rest }) (s' := { s' with script := rest }) hinst hmark rfl
      hreplies hdraws]

/-- For an idle block, a launch with no premise about IN is clean if the mark is clear and the program reads only
what it writes (R143). -/
theorem State.cleanLaunch_nil_iff {s : State} (hidle : s.busy = false) (hpending : s.pending = none) :
    s.cleanLaunch [] ↔ s.mark = none ∧ readsKnown s.script [] s = true := by
  simp [State.cleanLaunch, hidle, hpending]

/-- Settles O57: RST leaves the block idle with the mark it had, so the launch is clean by the mark and the rest of
the program. -/
theorem resetGivesACleanLaunchUnlessRefused : Obligations.ResetGivesACleanLaunchUnlessRefused := by
  intro s t rest hstep
  obtain rfl : { s with script := rest }.assertReset = t := by simpa [step_rst] using hstep
  have hmark : { s with script := rest }.assertReset.mark = none ↔ ¬ s.refusedRun := not_not.symm
  exact ⟨rfl, rfl, hmark, (State.cleanLaunch_nil_iff rfl rfl).trans (and_congr_left' hmark)⟩

/-! ### A program from a state (R143) -/

section
variable {s t : State} {known : List Nat} {rest : List Event}

/-- Which elements an event makes known: a write of IN its own, RST none, every other event no new one (R143). -/
theorem Event.of_mem_known {e : Event} {j : Nat} (h : j ∈ e.known s known) :
    e ≠ .rst ∧ (j ∈ known ∨ ∃ v, e = wrbIn j v ∧ j < s.inst.inCap ∧ s.busy = false) := by
  rcases e with (⟨sp, off, w⟩ | ⟨sp, off, d⟩) | _ | _
  case access.write =>
    refine ⟨by simp, ?_⟩
    cases sp with
    | reg | outBuf => exact .inl h
    | inBuf =>
      cases hw : writeIn off d s with
      | fault | refused => exact .inl (by simpa [Event.known, hw] using h)
      | next u =>
        rcases List.mem_cons.1 (by simpa only [Event.known, hw] using h) with rfl | hj
        · rcases serve_next (a := .write .inBuf j d) hw with ⟨_, _, ha, _⟩ | ⟨_, ha, _⟩ | ⟨_, ha, _⟩ | ⟨_, _, ha, _⟩ |
            ⟨k, v, ha, hk, hidle, -⟩ | ⟨_, _, _, ha, _⟩ <;> cases ha
          exact .inr ⟨v, rfl, hk, hidle⟩
        · exact .inl hj
  case access.read | engine => exact ⟨by simp, .inl h⟩
  case rst => simp [Event.known] at h

/-- A write of an element of IN that is served makes it known (R44, R143). -/
theorem Event.known_wrbIn {k : Nat} (hidle : s.busy = false) (hk : k < s.inst.inCap) (v : Byte) :
    (wrbIn k v).known s known = k :: known := by
  simp [wrbIn, Event.known, writeIn, hidle, hk]

/-- What an event makes known does not depend on what else is to come. -/
theorem Event.known_script_update (e : Event) (s : State) (known : List Nat) (script : List Event) :
    e.known { s with script := script } known = e.known s known := by
  rcases e with (⟨sp, off, w⟩ | ⟨sp, off, d⟩) | _ | _
  case access.write =>
    cases sp with
    | reg | outBuf => rfl
    | inBuf =>
      cases d with
      | word => rfl
      | byte v => simp only [Event.known, writeIn]; split_ifs <;> rfl
  all_goals rfl

/-- `readsKnown` reads the program it is given, not the state's script. -/
theorem readsKnown_script_update (prog : List Event) (known : List Nat) (s : State) (script : List Event) :
    readsKnown prog known { s with script := script } = readsKnown prog known s := by
  cases prog with
  | nil => rfl
  | cons e rest => simp only [readsKnown, Event.known_script_update]; rfl

/-- A program whose first access is served (R143). -/
theorem readsKnown_access {a : Access} (h : HostGives a s t) :
    readsKnown (.access a :: rest) known s = true ↔
      s.startKnown t known = true ∧ readsKnown rest ((Event.access a).known s known) t = true := by
  have hstart : s.startKnown { t with script := rest } known = s.startKnown t known := rfl
  rw [readsKnown, h rest]
  simp only [Bool.and_eq_true, hstart, readsKnown_script_update]

/-- Where no command is pending after a step, it was no START (R89, R143). -/
theorem startKnown_of_pending_none (s : State) (known : List Nat) (h : t.pending = none) :
    s.startKnown t known = true :=
  startKnown_iff.2 fun _ p hp => by simp [h] at hp

end

/-! ### Boot order (R133) -/

/-- A fill of elements in range of an idle block reads nothing, leaves the block idle with its LEN, and makes each
element of the fill known (R133, R143). -/
theorem exists_known_of_fillFrom (bytes : List Byte) (k : Nat) (known : List Nat) {s : State} (hidle : s.busy = false)
    (hpending : s.pending = none) (hcap : k + bytes.length ≤ s.inst.inCap) :
    ∃ u known', u.busy = false ∧ u.pending = none ∧ u.len = s.len ∧ u.inst = s.inst ∧
      (∀ j, j ∈ known ∨ k ≤ j ∧ j < k + bytes.length → j ∈ known') ∧
      ∀ rest, readsKnown rest known' u = true → readsKnown (fillFrom k bytes ++ rest) known s = true := by
  induction bytes generalizing k known s with
  | nil =>
    refine ⟨s, known, hidle, hpending, rfl, rfl, ?_, fun _ h => h⟩
    rintro j (hj | ⟨hge, hlt⟩)
    · exact hj
    · exact absurd hlt hge.not_gt
  | cons b bs ih =>
    rw [List.length_cons] at hcap ⊢
    have hk : k < s.inst.inCap := by omega
    obtain ⟨u, known', hidleu, hpendingu, hlen, hinst, hmem, hread⟩ :=
      ih (k + 1) (k :: known) (s := s.setIn k b) hidle hpending (by rw [State.setIn_inst]; omega)
    refine ⟨u, known', hidleu, hpendingu, hlen, hinst, ?_, fun rest hrest => ?_⟩
    · rintro j (hj | ⟨hge, hlt⟩)
      · exact hmem j (.inl (.tail _ hj))
      · rcases hge.eq_or_lt with rfl | hgt
        · exact hmem k (.inl (.head _))
        · exact hmem j (.inr ⟨hgt, by omega⟩)
    · refine (readsKnown_access (hostGives_writeIn hidle hk b)).2 ⟨startKnown_of_pending_none s known hpending, ?_⟩
      rw [← wrbIn, Event.known_wrbIn hidle hk]
      exact hread rest hrest

/-- A turn of the engine or a read of a register, where BUSY = 1 goes with a pending record: it is no START, and
BUSY = 1 still goes with a pending record (R33, R41, R90). -/
theorem exists_step_of_wait {e : Event} (he : e = .engine ∨ ∃ r, e = rd r) {s : State}
    (hbusy : s.busy = s.pending.isSome) (rest : List Event) :
    ∃ t, step { s with script := e :: rest } = .next t ∧ (s.busy = false → t.pending = none) ∧
      t.busy = t.pending.isSome := by
  have hnone (hidle : s.busy = false) : s.pending = none := by simpa [hidle] using hbusy.symm
  rcases he with rfl | ⟨r, rfl⟩
  · obtain ⟨t, ht⟩ := exists_engineTurn_next (s := { s with script := rest }) hbusy
    refine ⟨t, ht, ?_⟩
    rcases engineTurn_next ht with ⟨-, rfl⟩ | ⟨-, p, -, rfl⟩
    · exact ⟨hnone, hbusy⟩
    · simp
  · exact ⟨_, hostGives_readRegister s r rest, hnone, hbusy⟩

/-- A wait starts no command (R73, R143). -/
theorem readsKnown_of_wait (prog : List Event) (hprog : ∀ e ∈ prog, e = .engine ∨ ∃ r, e = rd r) (known : List Nat)
    {s : State} (hbusy : s.busy = s.pending.isSome) : readsKnown prog known s = true := by
  induction prog generalizing known s with
  | nil => rfl
  | cons e rest ih =>
    rw [List.forall_mem_cons] at hprog
    obtain ⟨he, hrest⟩ := hprog
    obtain ⟨t, ht, hidle, hbusyt⟩ := exists_step_of_wait he hbusy rest
    exact readsKnown_cons.2 ⟨t, ht, startKnown_iff.2 fun h p hp => by simp [hidle h] at hp, ih hrest _ hbusyt⟩

theorem mem_waitPolls {e : Event} {polls : Nat} (he : e ∈ waitPolls polls) : e = .engine ∨ ∃ r, e = rd r := by
  simp only [waitPolls, List.mem_append, List.mem_replicate, List.mem_cons, List.not_mem_nil, or_false] at he
  rcases he with ⟨-, rfl⟩ | rfl | rfl
  · exact .inr ⟨_, rfl⟩
  · exact .inl rfl
  · exact .inr ⟨_, rfl⟩

/-- START of a length within the capacity, through the port of an idle block (R42, R89). -/
theorem hostGives_startCmd {s : State} {i : Instr} {n : Nat} (hidle : s.busy = false) (hn : i.length s = some n)
    (hcap : n ≤ s.inst.inCap) :
    HostGives (.write .reg 0x00 (.word (encode i))) s (s.issue (encode i) i.job n) :=
  hostGives_of fun rest => by
    have hlength : i.length { s with script := rest } = some n := (i.length_congr (s := s) rfl rfl).trans hn
    rw [serve_writeCmd (decode_encode i), exec_of_length_le hlength hidle hcap]
    rfl

/-- A command whose elements are known, run on an idle block (R73, R143). -/
theorem readsKnown_runFixed {s : State} {i : Instr} {n : Nat} {known : List Nat} (hidle : s.busy = false)
    (hn : i.length s = some n) (hcap : n ≤ s.inst.inCap) (hknown : ∀ j, j < n → j ∈ known) (polls : Nat) :
    readsKnown (runFixed i polls) known s = true := by
  refine (readsKnown_access (hostGives_startCmd hidle hn hcap)).2 ⟨startKnown_iff.2 ?_, ?_⟩
  · rintro - p ⟨⟩
    exact hknown
  · exact readsKnown_of_wait _ (fun _ => mem_waitPolls) _ rfl

/-- The same after a write of LEN, which the command may take its length from (R66, R73). -/
theorem readsKnown_runCmd {s : State} {i : Instr} {v : Word} {n : Nat} {known : List Nat} (hidle : s.busy = false)
    (hpending : s.pending = none) (hn : i.length (s.setLen v) = some n) (hcap : n ≤ s.inst.inCap)
    (hknown : ∀ j, j < n → j ∈ known) (polls : Nat) : readsKnown (runCmd i v polls) known s = true :=
  (readsKnown_access (lenWriteStoresAnyValue s v)).2
    ⟨startKnown_of_pending_none s known hpending, readsKnown_runFixed (s := s.setLen v) hidle hn hcap hknown polls⟩

/-- Settles O58: the fill makes known every element that a command of at most that many reads. -/
theorem bootOrderGivesACleanLaunch : Obligations.BootOrderGivesACleanLaunch := by
  intro s bytes i v n polls hmark hidle hpending hfits hn
  obtain ⟨u, known, hidleu, hpendingu, hlen, hinst, hmem, hread⟩ :=
    exists_known_of_fillFrom bytes 0 [] hidle hpending (by rwa [Nat.zero_add])
  have hcap : n ≤ u.inst.inCap := hinst ▸ hn.trans hfits
  have hknown : ∀ j, j < n → j ∈ known := fun j hj => hmem j (.inr (by omega))
  have hlaunch {prog : List Event} (h : readsKnown prog known u = true) :
      { s with script := fillFrom 0 bytes ++ prog }.cleanLaunch [] := by
    refine (State.cleanLaunch_nil_iff (s := { s with script := fillFrom 0 bytes ++ prog }) hidle hpending).2 ⟨hmark, ?_⟩
    rw [readsKnown_script_update]
    exact hread prog h
  constructor
  · intro hlength
    have hlengthu : i.length (u.setLen v) = i.length (s.setLen v) := i.length_congr rfl hinst
    exact hlaunch (readsKnown_runCmd hidleu hpendingu (hlengthu.trans hlength) hcap hknown polls)
  · intro hlength
    have hlengthu : i.length u = i.length s := i.length_congr hlen hinst
    exact hlaunch (readsKnown_runFixed hidleu (hlengthu.trans hlength) hcap hknown polls)

/-! ### What the commands of a run read (R143) -/

/-- What a run from a clean launch keeps: the known elements of IN are defined, those a pending command will read are
defined, and the rest of the program reads only known elements. -/
structure State.ReadsDefined (s : State) (known : List Nat) : Prop where
  knownDefined : ∀ j ∈ known, (Memory.read s.inBuf j).isSome
  pendingDefined : ∀ p, s.pending = some p → ∀ j, j < p.n → (Memory.read s.inBuf j).isSome
  programKnown : readsKnown s.script known s = true

theorem State.cleanLaunch.readsDefined {s : State} {given : List Host.Cell} (h : s.cleanLaunch given) :
    s.ReadsDefined (given.map Prod.fst) := by
  obtain ⟨-, -, hpending, hgiven, hprogram⟩ := h
  refine ⟨fun j hj => ?_, fun p hp => by simp [hpending] at hp, hprogram⟩
  obtain ⟨c, hc, rfl⟩ := List.mem_map.1 hj
  simp [hgiven c hc]

/-- Only RST makes an element of IN undefined (R31, R44, R130). -/
theorem BlockStep.read_isSome {s t : State} (hstep : BlockStep s t) (hrst : ∀ rest, s.script ≠ .rst :: rest) {j : Nat}
    (hj : (Memory.read s.inBuf j).isSome) : (Memory.read t.inBuf j).isSome := by
  cases hstep with
  | keep | complete | setLen | start => simpa using hj
  | reset rest hs => exact absurd hs (hrst rest)
  | setIn k v rest =>
    rw [State.setIn_inBuf, Memory.read_write]
    split
    · rfl
    · exact hj

/-- A command is pending after a step because it was pending before it, or because the step was its START on an idle
block, which keeps IN (R89). -/
theorem BlockStep.pending_some {s t : State} (hstep : BlockStep s t) {p : Pending} (hp : t.pending = some p) :
    s.pending = some p ∨ s.busy = false ∧ t.inBuf = s.inBuf := by
  cases hstep with
  | keep | setLen | setIn => exact .inl hp
  | complete | reset => simp at hp
  | start i n rest _ hidle => exact .inr ⟨hidle, rfl⟩

/-- An element known after an event that is not RST is defined after it, if those known before it are (R44, R143). -/
theorem State.ReadsDefined.read_isSome_of_known {s t : State} {known : List Nat} (h : s.ReadsDefined known) {e : Event}
    {rest : List Event} (hs : s.script = e :: rest) (hstep : step s = .next t) {j : Nat} (hj : j ∈ e.known s known) :
    (Memory.read t.inBuf j).isSome := by
  obtain ⟨hrst, hknown | ⟨v, rfl, hcap, hidle⟩⟩ := Event.of_mem_known hj
  · exact (BlockStep.of_step hstep).read_isSome (by simp [hs, hrst]) (h.knownDefined j hknown)
  · have hgives := hostGives_writeIn hidle hcap v rest
    rw [← wrbIn, ← hs, hstep, Host.Outcome.next.injEq] at hgives
    rw [hgives, State.setIn_inBuf, Memory.read_write, if_pos rfl]
    rfl

/-- A command pending after a step was pending before it, or is started by it with its input known (R143). -/
theorem State.ReadsDefined.read_isSome_of_pending {s t : State} {known : List Nat} (h : s.ReadsDefined known)
    (hstep : step s = .next t) (hstart : s.startKnown t known = true) {p : Pending} (hp : t.pending = some p) {j : Nat}
    (hj : j < p.n) : (Memory.read t.inBuf j).isSome := by
  have hblock := BlockStep.of_step hstep
  have hrst : ∀ rest, s.script ≠ .rst :: rest := by
    intro rest hs
    obtain rfl : { s with script := rest }.assertReset = t := by simpa [step, hs] using hstep
    simp at hp
  rcases hblock.pending_some hp with hold | ⟨hidle, hin⟩
  · exact hblock.read_isSome hrst (h.pendingDefined p hold j hj)
  · rw [hin]
    exact h.knownDefined j (startKnown_iff.1 hstart hidle p hp j hj)

/-- Every step of the run keeps it (R143). -/
theorem State.ReadsDefined.of_step {s t : State} {known : List Nat} (h : s.ReadsDefined known)
    (hstep : step s = .next t) : ∃ known', t.ReadsDefined known' := by
  cases hs : s.script with
  | nil =>
    have heng : engineTurn s = .next t := by simpa [step, hs] using hstep
    rcases engineTurn_next heng with ⟨-, rfl⟩ | ⟨-, p, -, rfl⟩
    · exact ⟨known, h⟩
    · exact ⟨known, by simpa using h.knownDefined, by simp, by simp [hs]⟩
  | cons e rest =>
    have hprogram := h.programKnown
    rw [hs, readsKnown_cons, ← hs] at hprogram
    obtain ⟨u, hu, hstart, hrest⟩ := hprogram
    obtain rfl : t = u := by simpa using hstep.symm.trans hu
    refine ⟨e.known s known, fun j hj => h.read_isSome_of_known hs hstep hj,
      fun p hp j hj => h.read_isSome_of_pending hstep hstart hp hj, ?_⟩
    rwa [step_script hstep, hs]

/-- A run that answers next after its first step answered next there (the converse of `run_of_step`). -/
theorem exists_step_of_run {k : Nat} {s t : State} (h : core.run (k + 1) s = .next t) :
    ∃ u, step s = .next u ∧ core.run k u = .next t := by
  have key : ∀ (M : Host.Core) (a c : M.State), M.run (k + 1) a = .next c →
      ∃ b, M.step a = .next b ∧ M.run k b = .next c := by
    intro M a c hrun
    cases hstep : M.step a with
    | next b => exact ⟨b, rfl, by simpa only [Host.Core.run, hstep] using hrun⟩
    | fault | refused => simp [Host.Core.run, hstep] at hrun
  exact key core s t h

theorem State.ReadsDefined.of_run {k : Nat} {s t : State} {known : List Nat} (h : s.ReadsDefined known)
    (hrun : core.run k s = .next t) : ∃ known', t.ReadsDefined known' := by
  induction k generalizing s known with
  | zero =>
    obtain rfl : s = t := Host.Outcome.next.inj hrun
    exact ⟨known, h⟩
  | succ k ih =>
    obtain ⟨u, hstep, hrest⟩ := exists_step_of_run hrun
    obtain ⟨known', hu⟩ := h.of_step hstep
    exact ih hu hrest

/-- Settles O59: a clean launch reads only known elements, which are defined, and every step of the run keeps that. -/
theorem cleanLaunchCommandsReadDefinedInput : Obligations.CleanLaunchCommandsReadDefinedInput := by
  intro s t given k p hlaunch hrun hp
  obtain ⟨known, ht⟩ := hlaunch.readsDefined.of_run hrun
  exact ht.pendingDefined p hp

end Sys2Proof.Machine
